-- ==== Sys2Proof/Word.lean ====
section
/-! DEFINITION. The two word types of the engine: the 32-bit bus word (20_memory.md R50) and the 256-bit
register (00_scope.md R6). Arithmetic of the curve is not done on these but on natural numbers (00_scope.md R9). -/

namespace Sys2Proof

/-- One word of the host bus, and one command word (00_scope.md R6). -/
abbrev Word32 := BitVec 32

/-- The contents of one operand, result or constant register (00_scope.md R6). -/
abbrev Word256 := BitVec 256

end Sys2Proof
end

