-- ==== Sys2Proof/Syntax.lean ====
section
/-! DEFINITION. The seven commands of 30_encoding.md R71, one constructor for each row of spec/opcode_table.json.
An argument is the number the assembler syntax of R77 writes; WellFormed.lean says which numbers it accepts. -/

namespace Sys2Proof

/-- A command of the engine (30_encoding.md R71). All operands but the argument are implicit (R70). -/
inductive Instr where
  /-- `PADD`, point addition (41_point_math.md R134). -/
  | padd
  /-- `PDBL`, point doubling (41_point_math.md R135). -/
  | pdbl
  /-- `PMUL`, scalar multiplication (41_point_math.md R136). -/
  | pmul
  /-- `SQRT`, modular square root (42_point_decoder.md R154). -/
  | sqrt
  /-- `DECOMP even` is odd = 0, `DECOMP odd` is odd = 1 (42_point_decoder.md R155). -/
  | decomp (odd : Nat)
  /-- `RECOVER id` (43_signature_recovery.md R175). -/
  | recover (recid : Nat)
  /-- `RECOVERV v` (43_signature_recovery.md R177). -/
  | recoverv (v : Nat)
  deriving DecidableEq, Repr

end Sys2Proof
end

