-- ==== Sys2Proof/WellFormed.lean ====
section
/-! DEFINITION. Which commands the assembler accepts (30_encoding.md R77): "An assembler refuses any other operand,
such as PADD 1, DECOMP 2, RECOVER 4 or RECOVERV 256". -/

namespace Sys2Proof

/-- The argument is one of the legal values of 30_encoding.md R72. -/
def Instr.wellFormed : Instr → Bool
  | .padd => true
  | .pdbl => true
  | .pmul => true
  | .sqrt => true
  | .decomp odd => decide (odd < 2)
  | .recover recid => decide (recid < 4)
  | .recoverv v => decide (v < 256)

end Sys2Proof
end

