-- ==== Sys2Proof/Decode.lean ====
section
/-! DEFINITION. Decoding a command word (30_encoding.md R75), total on every 32-bit word and rejecting by name the
illegal words of R73; the encoder (R70, R71, R72, R77); and the opcode table as rows of mask and pattern. -/

namespace Sys2Proof

/-- Why a word is illegal (30_encoding.md R73). -/
inductive IllegalWord where
  /-- A bit of RSV1, bits 31:16, is 1. -/
  | reservedHigh
  /-- A bit of RSV0, bits 7:4, is 1. -/
  | reservedLow
  /-- OPC is 0x0 or 0x8 to 0xF. -/
  | opcode
  /-- A bit of ARG that is reserved for this OPC is 1. -/
  | argument
  deriving DecidableEq, Repr

/-- OPC, bits 3:0 (30_encoding.md R70). -/
def opcField (w : Word32) : Nat := (w.extractLsb' 0 4).toNat

/-- RSV0, bits 7:4 (30_encoding.md R70). -/
def rsv0Field (w : Word32) : Nat := (w.extractLsb' 4 4).toNat

/-- ARG, bits 15:8 (30_encoding.md R70, R72). -/
def argField (w : Word32) : Nat := (w.extractLsb' 8 8).toNat

/-- RSV1, bits 31:16 (30_encoding.md R70). -/
def rsv1Field (w : Word32) : Nat := (w.extractLsb' 16 16).toNat

/-- A command without an argument: every bit of ARG is reserved (30_encoding.md R72). -/
def plainCommand (i : Instr) (arg : Nat) : Except IllegalWord Instr :=
  if arg = 0 then .ok i else .error .argument

/-- The second half of the decoder: OPC and ARG, once RSV0 and RSV1 are known to be 0 (30_encoding.md R75). -/
def decodeFields (opc arg : Nat) : Except IllegalWord Instr :=
  match opc with
  | 0x1 => plainCommand .padd arg
  | 0x2 => plainCommand .pdbl arg
  | 0x3 => plainCommand .pmul arg
  | 0x4 => plainCommand .sqrt arg
  | 0x5 => if arg / 2 = 0 then .ok (.decomp (arg % 2)) else .error .argument
  | 0x6 => if arg / 4 = 0 then .ok (.recover (arg % 4)) else .error .argument
  | 0x7 => .ok (.recoverv arg)
  | _ => .error .opcode

/-- `decode` of 30_encoding.md R75. -/
def decode (w : Word32) : Except IllegalWord Instr :=
  if rsv1Field w ≠ 0 then .error .reservedHigh
  else if rsv0Field w ≠ 0 then .error .reservedLow
  else decodeFields (opcField w) (argField w)

/-- A command word from its OPC and ARG, the reserved fields 0 (30_encoding.md R70). -/
def commandWord (opc arg : Nat) : Word32 := 0#16 ++ BitVec.ofNat 8 arg ++ 0#4 ++ BitVec.ofNat 4 opc

/-- The word an assembler writes for a command (30_encoding.md R77). -/
def encode : Instr → Word32
  | .padd => commandWord 0x1 0
  | .pdbl => commandWord 0x2 0
  | .pmul => commandWord 0x3 0
  | .sqrt => commandWord 0x4 0
  | .decomp odd => commandWord 0x5 odd
  | .recover recid => commandWord 0x6 recid
  | .recoverv v => commandWord 0x7 v

/-- A row of the opcode table: a word belongs to it when its bits under `mask` are `pattern`. -/
structure OpcodeRow where
  mnemonic : String
  pattern : Word32
  mask : Word32
  deriving DecidableEq, Repr

/-- spec/opcode_table.json, row by row. -/
def opcodeTable : List OpcodeRow :=
  [⟨"PADD", 0x00000001#32, 0xFFFFFFFF#32⟩,
   ⟨"PDBL", 0x00000002#32, 0xFFFFFFFF#32⟩,
   ⟨"PMUL", 0x00000003#32, 0xFFFFFFFF#32⟩,
   ⟨"SQRT", 0x00000004#32, 0xFFFFFFFF#32⟩,
   ⟨"DECOMP", 0x00000005#32, 0xFFFFFEFF#32⟩,
   ⟨"RECOVER", 0x00000006#32, 0xFFFFFCFF#32⟩,
   ⟨"RECOVERV", 0x00000007#32, 0xFFFF00FF#32⟩]

/-- The word belongs to this row. -/
def OpcodeRow.covers (r : OpcodeRow) (w : Word32) : Bool := w &&& r.mask == r.pattern

/-- The mnemonic of a command (30_encoding.md R71). -/
def Instr.mnemonic : Instr → String
  | .padd => "PADD"
  | .pdbl => "PDBL"
  | .pmul => "PMUL"
  | .sqrt => "SQRT"
  | .decomp _ => "DECOMP"
  | .recover _ => "RECOVER"
  | .recoverv _ => "RECOVERV"

/-- The command word of an instruction given as the opcode table numbers its bits: every command is one 32-bit
word (30_encoding.md R76), and the bits above `nbits` are 0. -/
def tableWord (nbits w : Nat) : Word32 := BitVec.ofNat 32 (w % 2 ^ nbits)

/-- The instruction the decoder reads from a table word; no command is longer than 32 bits (30_encoding.md R76). -/
def decodeTableWord (nbits w : Nat) : Option Instr :=
  if nbits ≤ 32 then (decode (tableWord nbits w)).toOption else none

end Sys2Proof
end

