-- ==== Sys2Proof/Machine/CurveParameters.lean ====
section
/-! DEFINITION. The source's CurveParameters (00_scope.md R12): the constants of secp256k1, and the identity values of
10_state.md R22 and R23. They are constants of the model, not state (10_state.md R39). The numerical values of p, n
and G are marked in the spec as general knowledge (93_implementation_defined.md GK-1 to GK-3). -/

namespace Sys2Proof.Machine

/-- The prime modulus p = 2^256 - 2^32 - 977 (00_scope.md R12). -/
def curveP : Nat := 0xFFFFFFFFFFFFFFFFFFFFFFFFFFFFFFFFFFFFFFFFFFFFFFFFFFFFFFFEFFFFFC2F

/-- The group order n (00_scope.md R12). -/
def curveN : Nat := 0xFFFFFFFFFFFFFFFFFFFFFFFFFFFFFFFEBAAEDCE6AF48A03BBFD25E8CD0364141

/-- The x-coordinate of the base point G (00_scope.md R12). -/
def curveGx : Nat := 0x79BE667EF9DCBBAC55A06295CE870B07029BFCDB2DCE28D959F2815B16F81798

/-- The y-coordinate of the base point G (00_scope.md R12). -/
def curveGy : Nat := 0x483ADA7726A3C4655DA4FBFC0E1108A8FD17B448A68554199C47D08FFB10D4B8

/-- The coefficient a of y² = x³ + a·x + b (00_scope.md R12). -/
def curveA : Nat := 0

/-- The coefficient b of y² = x³ + a·x + b (00_scope.md R12). -/
def curveB : Nat := 7

/-- What ID reads: the ASCII bytes "K256" (10_state.md R22). -/
def idValue : Word32 := 0x4B323536#32

/-- What VERSION reads: major 1, minor 0 (10_state.md R23). -/
def versionValue : Word32 := 0x00010000#32

end Sys2Proof.Machine
end

