-- ==== Sys2Proof/Machine/ModArith.lean ====
section
/-! DEFINITION. The modular arithmetic of 40_command_execution.md R100 to R105, on unbounded natural numbers with the
Euclidean remainder of 00_scope.md R9. Sums and products are reduced once at the end, as R100 allows. -/

namespace Sys2Proof.Machine

/-- The Euclidean remainder of an integer, never negative (00_scope.md R9). -/
def modInt (v : Int) (m : Nat) : Nat := (v % (m : Int)).toNat

/-- `fadd` (40_command_execution.md R100). -/
def fadd (a b : Nat) : Nat := (a + b) % curveP

/-- `fsub`, never negative (40_command_execution.md R100). -/
def fsub (a b : Nat) : Nat := modInt ((a : Int) - (b : Int)) curveP

/-- `fmul` (40_command_execution.md R100). -/
def fmul (a b : Nat) : Nat := (a * b) % curveP

/-- `fneg`, with `fneg 0 = 0` (40_command_execution.md R100). -/
def fneg (a : Nat) : Nat := (curveP - a) % curveP

/-- a^e mod m over the low `bits` bits of e, by squaring. `Laws.powBits_eq` shows that it is the power of R102. -/
def powBits (m a : Nat) : Nat → Nat → Nat
  | 0, _ => 1 % m
  | bits + 1, e =>
    let h := powBits m a bits (e / 2)
    if e % 2 = 1 then h * h % m * a % m else h * h % m

/-- `pow_m(a, e)` for an exponent of at most 256 bits (40_command_execution.md R102): the exponents in use are
(p + 1) / 4, p - 2 and n - 2. -/
def powMod (m a e : Nat) : Nat := powBits m a 256 e

/-- `inv_m(a)` (40_command_execution.md R103), computed as a^(m-2) mod m. DEDUCED: the rule defines the inverse by its
property and rests on m being prime; for a prime m this power is that inverse (`Laws.invMod_spec`). See
notes/assumptions/1.md. -/
def invMod (m a : Nat) : Nat := powMod m a (m - 2)

/-- `inv_p` (40_command_execution.md R103). -/
def invP (a : Nat) : Nat := invMod curveP a

/-- `inv_n` (40_command_execution.md R103). -/
def invN (a : Nat) : Nat := invMod curveN a

end Sys2Proof.Machine
end

