-- ==== Sys2Proof/Config.lean ====
section
/-! DEFINITION. The open parameters of 00_scope.md R7, which nothing in the model fixes: the place of the window
and the latency of a command. Neither has a body, so no proof can lean on a value. The operand register file
stands here because the latency may depend on it. -/

namespace Sys2Proof

/-- The operand registers and operand flags (10_state.md R29 to R32): written only by the host, read only by the
commands (R21, R38). `by_` is BY. -/
structure OperandFile where
  ainf : Bool
  binf : Bool
  ax : Word256
  ay : Word256
  bx : Word256
  by_ : Word256
  k : Word256
  sigR : Word256
  sigS : Word256
  digest : Word256
  deriving DecidableEq, Repr

namespace Config

/-- ECR_BASE divided by 4096, left to the platform (00_scope.md R7, decision D2). -/
opaque ecrPage : Nat

/-- ECR_BASE, the bus address of window offset 0: a multiple of 4096 (00_scope.md R7). -/
def ecrBase : Nat := 4096 * ecrPage

/-- How many engine steps beyond the first an accepted command takes; free (00_scope.md R7, decision D20). -/
opaque latencyBeyondFirst : Word32 → OperandFile → Nat

/-- LATENCY(cmd, operands): any finite number from 1 up (40_command_execution.md R113). -/
def latency (w : Word32) (ops : OperandFile) : Nat := latencyBeyondFirst w ops + 1

end Config

end Sys2Proof
end

