-- ==== Sys2Proof/Machine/State.lean ====
section
/-! DEFINITION. The state of one engine instance (10_state.md R39) with, beside it, the events still to come in the
total order of 20_memory.md R61 and what the host has read; the faults and refusals of a step; and the state after
reset (70_reset_and_hazards.md R230). There is no memory, no program counter and no register file beyond the window
(10_state.md R20, R21). -/

namespace Sys2Proof.Machine

/-- Why a step faults. -/
inductive Fault where
  /-- A host access that is not a 32-bit access at an offset that is a multiple of 4 (20_memory.md R51: "A model
  treats such an access as a fault of the host access"). Raised by the host's accesses in Ops.lean. Safe. -/
  | busError
  /-- The reset input is held and the next event is not one of its edges: no host access is answered and no engine
  step happens (70_reset_and_hazards.md R230, 93_implementation_defined.md K-19: stuck while held). Raised by
  Engine.lean's `nextEvent`. Safe. -/
  | heldInReset
  deriving DecidableEq, Repr

/-- Why a step is refused. -/
inductive Refusal where
  /-- An instruction without a meaning yet. Raised by no arm of this model. Safe. -/
  | notModelled (mnemonic : String)
  /-- A host access to a bus address outside the window: "what they reach is the platform's" (20_memory.md R52,
  93_implementation_defined.md K-13). Raised by the host's accesses in Ops.lean. Safe. -/
  | outsideWindow
  deriving DecidableEq, Repr

/-- The size of a bus access (20_memory.md R50, R51): only `word` is 32 bits. -/
inductive AccessSize where
  | byte
  | halfword
  | word
  | burst
  deriving DecidableEq, Repr

/-- A host access (30_encoding.md R78, R80), at a bus address. -/
inductive HostOp where
  /-- `wr`: write `data`. For a size other than `word` the access is a bus error whatever the data. -/
  | wr (addr : Nat) (size : AccessSize) (data : Word32)
  /-- `rd`: read, and keep the value under `name`. -/
  | rd (addr : Nat) (size : AccessSize) (name : String)
  /-- `poll`: repeat a 32-bit read until the value and `mask` is `val`. -/
  | poll (addr : Nat) (mask val : Word32)
  deriving DecidableEq, Repr

/-- An event of the total order of 20_memory.md R61. -/
inductive Event where
  /-- A host access reaches the engine. -/
  | host (op : HostOp)
  /-- The engine takes a step (40_command_execution.md R114, R115). -/
  | engine
  /-- The reset input is asserted: the reset of 70_reset_and_hazards.md R230. -/
  | resetAssert
  /-- The reset input is released. -/
  | resetRelease
  deriving DecidableEq, Repr

/-- The record of 10_state.md R39 (operand registers and flags grouped in `ops`), and the model's own three fields for
what stands outside the engine: `resetHeld`, `events`, `hostVals` (notes/assumptions/4.md). -/
structure State where
  /-- CMD, the last accepted word; while BUSY = 1 also the latched command word (10_state.md R24, R37). -/
  cmd : Word32
  /-- STATUS.BUSY (10_state.md R25). -/
  busy : Bool
  /-- STATUS.DONE (10_state.md R25). -/
  done : Bool
  /-- STATUS.ERR (10_state.md R25). -/
  err : Bool
  /-- STATUS.ERRCODE (10_state.md R25). -/
  errcode : BitVec 4
  /-- STATUS.WERR (10_state.md R26). -/
  werr : Bool
  /-- STATUS.QINF (10_state.md R25, R33). -/
  qinf : Bool
  /-- IRQEN.DONEIE (10_state.md R27). -/
  doneie : Bool
  /-- IRQPEND.DONEIP (10_state.md R28). -/
  doneip : Bool
  /-- OPFLAGS, AX, AY, BX, BY, K, SIG_R, SIG_S, DIGEST (10_state.md R29 to R32). -/
  ops : OperandFile
  /-- QX (10_state.md R33). -/
  qx : Word256
  /-- QY (10_state.md R33). -/
  qy : Word256
  /-- Engine steps left of the command in flight (10_state.md R37). -/
  remaining : Nat
  /-- The reset input is held (70_reset_and_hazards.md R230). -/
  resetHeld : Bool
  /-- The events still to come, first to happen first (20_memory.md R61). -/
  events : List Event
  /-- What the host has read, latest first (30_encoding.md R78). -/
  hostVals : List (String × Word32)
  deriving DecidableEq, Repr

/-- Every operand register and flag 0 (70_reset_and_hazards.md R230). -/
def OperandFile.zero : OperandFile :=
  { ainf := false, binf := false, ax := 0, ay := 0, bx := 0, by_ := 0, k := 0, sigR := 0, sigS := 0, digest := 0 }

/-- The machine right after reset (70_reset_and_hazards.md R230): "No state is left unspecified by reset". The reset
input is released, no event is listed and the host has read nothing. -/
def State.reset : State :=
  { cmd := 0, busy := false, done := false, err := false, errcode := 0, werr := false, qinf := false,
    doneie := false, doneip := false, ops := OperandFile.zero, qx := 0, qy := 0, remaining := 0,
    resetHeld := false, events := [], hostVals := [] }

end Sys2Proof.Machine
end

