-- ==== Sys2Proof/Machine/Operands.lean ====
section
/-! DEFINITION. Point values (00_scope.md R11), the two point operands (10_state.md R30), the error codes
(60_exceptions.md R201), the check of a point operand (40_command_execution.md R111), and the words of a 256-bit
register (20_memory.md R53). -/

namespace Sys2Proof.Machine

/-- A point value: the source's explicit sum type (00_scope.md R11). -/
inductive Point where
  | inf
  | aff (x y : Nat)
  deriving DecidableEq, Repr

/-- The errors a command can complete with (60_exceptions.md R201). -/
inductive ErrorCode where
  | illegalCommand
  | operandRange
  | pointNotOnCurve
  | noSquareRoot
  | invalidSignature
  | invalidRecoveryId
  | recoveryFailed
  deriving DecidableEq, Repr

/-- The value held in STATUS.ERRCODE (60_exceptions.md R201). -/
def ErrorCode.code : ErrorCode → BitVec 4
  | .illegalCommand => 0x1#4
  | .operandRange => 0x2#4
  | .pointNotOnCurve => 0x3#4
  | .noSquareRoot => 0x4#4
  | .invalidSignature => 0x5#4
  | .invalidRecoveryId => 0x6#4
  | .recoveryFailed => 0x7#4

/-- How a command ends: `Ok(Q)` or `Fail(c)` (40_command_execution.md R115). -/
abbrev CmdResult := Except ErrorCode Point

/-- Operand A (10_state.md R30). -/
def operandA (o : OperandFile) : Point := if o.ainf then .inf else .aff o.ax.toNat o.ay.toNat

/-- Operand B (10_state.md R30). -/
def operandB (o : OperandFile) : Point := if o.binf then .inf else .aff o.bx.toNat o.by_.toNat

/-- The base point (00_scope.md R12). -/
def basePoint : Point := .aff curveGx curveGy

/-- The curve equation (40_command_execution.md R110). -/
def onCurve (x y : Nat) : Bool := (y * y) % curveP == (x * x * x + curveA * x + curveB) % curveP

/-- `valid(P)` (40_command_execution.md R110). -/
def Point.valid : Point → Bool
  | .inf => true
  | .aff x y => decide (x < curveP) && decide (y < curveP) && onCurve x y

/-- `checkPoint(P)`: range first, then the curve equation (40_command_execution.md R111). -/
def checkPoint : Point → Except ErrorCode Unit
  | .inf => .ok ()
  | .aff x y =>
    if curveP ≤ x ∨ curveP ≤ y then .error .operandRange
    else if onCurve x y then .ok () else .error .pointNotOnCurve

/-- Word j of a 256-bit value, word 0 the most significant (20_memory.md R53). -/
def wordOf (x : Word256) (j : Nat) : Word32 := x.extractLsb' (224 - 32 * j) 32

/-- The value with word j replaced and the other seven unchanged (20_memory.md R53, R56). -/
def withWord (x : Word256) (j : Nat) (v : Word32) : Word256 :=
  (x &&& ~~~((0xFFFFFFFF#256) <<< (224 - 32 * j))) ||| (v.setWidth 256 <<< (224 - 32 * j))

end Sys2Proof.Machine
end

