-- ==== Sys2Proof/Machine/Flags.lean ====
section
/-! DEFINITION. The words in which the flags of 10_state.md R36 are read: STATUS, IRQEN, IRQPEND, OPFLAGS; and the
interrupt output (60_exceptions.md R210). Reserved bits read 0 (10_state.md R34). -/

namespace Sys2Proof.Machine

/-- What STATUS reads (10_state.md R25): 31:17 reserved, 16 WERR, 15:12 reserved, 11:8 ERRCODE, 7:4 reserved, 3 QINF,
2 ERR, 1 DONE, 0 BUSY. -/
def State.statusWord (s : State) : Word32 :=
  0#15 ++ BitVec.ofBool s.werr ++ 0#4 ++ s.errcode ++ 0#4 ++
    BitVec.ofBool s.qinf ++ BitVec.ofBool s.err ++ BitVec.ofBool s.done ++ BitVec.ofBool s.busy

/-- What IRQEN reads (10_state.md R27). -/
def State.irqenWord (s : State) : Word32 := 0#31 ++ BitVec.ofBool s.doneie

/-- What IRQPEND reads (10_state.md R28). -/
def State.irqpendWord (s : State) : Word32 := 0#31 ++ BitVec.ofBool s.doneip

/-- What OPFLAGS reads: bit 1 BINF, bit 0 AINF (10_state.md R29). -/
def State.opflagsWord (s : State) : Word32 := 0#30 ++ BitVec.ofBool s.ops.binf ++ BitVec.ofBool s.ops.ainf

/-- The level of the interrupt output: IRQ = DONEIE and DONEIP (60_exceptions.md R210). -/
def State.irq (s : State) : Bool := s.doneie && s.doneip

/-- The result value Q (10_state.md R33). -/
def State.result (s : State) : Point := if s.qinf then .inf else .aff s.qx.toNat s.qy.toNat

end Sys2Proof.Machine
end

