-- ==== Sys2Proof/Machine/Ops.lean ====
section
/-! DEFINITION. The operations every command and every host access shares: the register window and its read and write
rules (10_state.md R21, 20_memory.md R50 to R58), the accept and the completion of a command
(40_command_execution.md R113 to R116), and reset (70_reset_and_hazards.md R230). The engine takes no exceptions: an
error is a way of completing (60_exceptions.md R200, R206), so `complete` with an error stands where other machines
enter a handler, and the next accept, which clears ERR and ERRCODE, where they return from one. -/

namespace Sys2Proof.Machine

/-- The 32-bit registers of the window (10_state.md R21). -/
inductive CtrlReg where
  | id
  | version
  | cmd
  | status
  | irqen
  | irqpend
  | opflags
  deriving DecidableEq, Repr

/-- The 256-bit registers of the window (10_state.md R21). -/
inductive WideReg where
  | ax
  | ay
  | bx
  | by_
  | k
  | sigR
  | sigS
  | digest
  | qx
  | qy
  | constP
  | constN
  | constGx
  | constGy
  deriving DecidableEq, Repr

/-- What stands at one word of the window (10_state.md R21, R34). -/
inductive WindowWord where
  | ctrl (r : CtrlReg)
  | wide (r : WideReg) (j : Nat)
  | reserved
  deriving DecidableEq, Repr

/-- The offset of a 32-bit register (10_state.md R21). -/
def CtrlReg.offset : CtrlReg → Nat
  | .id => 0x000
  | .version => 0x004
  | .cmd => 0x008
  | .status => 0x00C
  | .irqen => 0x010
  | .irqpend => 0x014
  | .opflags => 0x018

/-- The offset of word 0 of a 256-bit register (10_state.md R21). -/
def WideReg.offset : WideReg → Nat
  | .ax => 0x100
  | .ay => 0x120
  | .bx => 0x140
  | .by_ => 0x160
  | .k => 0x180
  | .sigR => 0x1A0
  | .sigS => 0x1C0
  | .digest => 0x1E0
  | .qx => 0x200
  | .qy => 0x220
  | .constP => 0x300
  | .constN => 0x320
  | .constGx => 0x340
  | .constGy => 0x360

/-- The 32-bit registers in the order of their offsets (10_state.md R21). -/
def ctrlRegs : List CtrlReg := [.id, .version, .cmd, .status, .irqen, .irqpend, .opflags]

/-- The 256-bit registers in the order of their offsets (10_state.md R21). -/
def wideRegs : List WideReg :=
  [.ax, .ay, .bx, .by_, .k, .sigR, .sigS, .digest, .qx, .qy, .constP, .constN, .constGx, .constGy]

/-- The offset lies in the 32 bytes of this register (10_state.md R21). -/
def WideReg.covers (r : WideReg) (off : Nat) : Bool := decide (r.offset ≤ off) && decide (off < r.offset + 32)

/-- What stands at an offset (10_state.md R21): a 32-bit register, word (off - F) / 4 of the 256-bit register at F
(20_memory.md R55), or a reserved word (10_state.md R34). -/
def windowWord (off : Nat) : WindowWord :=
  match ctrlRegs.find? (fun r => r.offset == off) with
  | some r => .ctrl r
  | none =>
    match wideRegs.find? (fun r => r.covers off) with
    | some r => .wide r ((off - r.offset) / 4)
    | none => .reserved

/-- An operand register: writable by the host while idle (10_state.md R21, 20_memory.md R58: offsets 0x100 to
0x1FF). -/
def WideReg.isOperand : WideReg → Bool
  | .ax | .ay | .bx | .by_ | .k | .sigR | .sigS | .digest => true
  | .qx | .qy | .constP | .constN | .constGx | .constGy => false

/-- The value of a 256-bit register (10_state.md R30 to R35). -/
def State.wide (s : State) : WideReg → Word256
  | .ax => s.ops.ax
  | .ay => s.ops.ay
  | .bx => s.ops.bx
  | .by_ => s.ops.by_
  | .k => s.ops.k
  | .sigR => s.ops.sigR
  | .sigS => s.ops.sigS
  | .digest => s.ops.digest
  | .qx => s.qx
  | .qy => s.qy
  | .constP => BitVec.ofNat 256 curveP
  | .constN => BitVec.ofNat 256 curveN
  | .constGx => BitVec.ofNat 256 curveGx
  | .constGy => BitVec.ofNat 256 curveGy

/-- The operand file with one operand register set; a register that is none of them is left as it is. -/
def setOperand (o : OperandFile) (r : WideReg) (v : Word256) : OperandFile :=
  match r with
  | .ax => { o with ax := v }
  | .ay => { o with ay := v }
  | .bx => { o with bx := v }
  | .by_ => { o with by_ := v }
  | .k => { o with k := v }
  | .sigR => { o with sigR := v }
  | .sigS => { o with sigS := v }
  | .digest => { o with digest := v }
  | .qx | .qy | .constP | .constN | .constGx | .constGy => o

/-- The value of a 32-bit register (10_state.md R22 to R29). -/
def State.ctrl (s : State) : CtrlReg → Word32
  | .id => idValue
  | .version => versionValue
  | .cmd => s.cmd
  | .status => s.statusWord
  | .irqen => s.irqenWord
  | .irqpend => s.irqpendWord
  | .opflags => s.opflagsWord

/-- `BusRead(off)` (20_memory.md R55). It has no side effect. -/
def busRead (s : State) (off : Nat) : Word32 :=
  match windowWord off with
  | .ctrl r => s.ctrl r
  | .wide r j => wordOf (s.wide r) j
  | .reserved => 0

/-- Accept: a write to CMD while BUSY = 0 (40_command_execution.md R113). -/
def accept (w : Word32) (s : State) : State :=
  { s with cmd := w, busy := true, done := false, err := false, errcode := 0,
           remaining := Config.latency w s.ops }

/-- A write dropped because BUSY = 1 (20_memory.md R58). -/
def dropWrite (s : State) : State := { s with werr := true }

/-- A write to a 32-bit register (20_memory.md R56 to R58; 10_state.md R24 to R29). -/
def writeCtrl (r : CtrlReg) (v : Word32) (s : State) : State :=
  match r with
  | .id => s
  | .version => s
  | .cmd => if s.busy then dropWrite s else accept v s
  | .status => if v.getLsbD 16 then { s with werr := false } else s
  | .irqen => { s with doneie := v.getLsbD 0 }
  | .irqpend => if v.getLsbD 0 then { s with doneip := false } else s
  | .opflags =>
    if s.busy then dropWrite s
    else { s with ops := { s.ops with ainf := v.getLsbD 0, binf := v.getLsbD 1 } }

/-- A write to word j of a 256-bit register (20_memory.md R56 to R58). -/
def writeWide (r : WideReg) (j : Nat) (v : Word32) (s : State) : State :=
  if r.isOperand then
    if s.busy then dropWrite s else { s with ops := setOperand s.ops r (withWord (s.wide r) j v) }
  else s

/-- `BusWrite(off, v)` (20_memory.md R56 to R58). -/
def busWrite (off : Nat) (v : Word32) (s : State) : State :=
  match windowWord off with
  | .ctrl r => writeCtrl r v s
  | .wide r j => writeWide r j v s
  | .reserved => s

/-- `writeResult` (40_command_execution.md R116). -/
def writeResult (q : Point) (s : State) : State :=
  match q with
  | .inf => { s with qx := 0, qy := 0, qinf := true }
  | .aff x y => { s with qx := BitVec.ofNat 256 x, qy := BitVec.ofNat 256 y, qinf := false }

/-- What the outcome of a command does to the result or error registers (40_command_execution.md R115). -/
def recordResult (r : CmdResult) (s : State) : State :=
  match r with
  | .ok q => writeResult q s
  | .error c => { s with err := true, errcode := c.code }

/-- Completion (40_command_execution.md R115): record the outcome, then BUSY, DONE and DONEIP. No step of the command
is left. -/
def complete (r : CmdResult) (s : State) : State :=
  { recordResult r s with busy := false, done := true, doneip := true, remaining := 0 }

/-- Reset (70_reset_and_hazards.md R230, R231): every register and flag of the engine at its reset value, the command
in flight discarded. What stands outside the engine is not touched. -/
def engineReset (s : State) : State :=
  { State.reset with resetHeld := s.resetHeld, events := s.events, hostVals := s.hostVals }

/-- The window offset of a bus address; none outside the window (20_memory.md R50, R52). -/
def windowOffset (addr : Nat) : Option Nat :=
  if Config.ecrBase ≤ addr ∧ addr < Config.ecrBase + 4096 then some (addr - Config.ecrBase) else none

/-- One bus access: refused outside the window (20_memory.md R52), a bus error unless it is a 32-bit access at a
multiple of 4 (R51), and otherwise what the access does at its offset. -/
def busAccess (addr : Nat) (size : AccessSize) (act : Nat → State) : Host.Outcome State Fault Refusal :=
  match windowOffset addr with
  | none => .refused .outsideWindow
  | some off => if size = .word ∧ off % 4 = 0 then .next (act off) else .fault .busError

/-- One read of a poll (30_encoding.md R78): done when the value matches; otherwise the engine gets a step and the
poll is tried again. DESIGN CHOICE, notes/assumptions/5.md: one engine step between two reads. -/
def pollRead (addr off : Nat) (mask val : Word32) (s : State) : State :=
  if busRead s off &&& mask = val then s
  else { s with events := .engine :: .host (.poll addr mask val) :: s.events }

/-- A host access (30_encoding.md R78) reaching an engine whose reset is not held. -/
def hostAccess (op : HostOp) (s : State) : Host.Outcome State Fault Refusal :=
  match op with
  | .wr addr size v => busAccess addr size (fun off => busWrite off v s)
  | .rd addr size name => busAccess addr size (fun off => { s with hostVals := (name, busRead s off) :: s.hostVals })
  | .poll addr mask val => busAccess addr .word (fun off => pollRead addr off mask val s)

/-- The state in which the command word w has just been accepted with a latency of one engine step, reset is not held,
and that engine step is the next event. -/
def placeCommand (w : Word32) (s : State) : State :=
  { s with cmd := w, busy := true, done := false, err := false, errcode := 0, remaining := 1,
           resetHeld := false, events := .engine :: s.events }

end Sys2Proof.Machine
end

