-- ==== Sys2Proof/Machine/PointMath.lean ====
section
/-! DEFINITION. The source's PointMath (41_point_math.md): the group functions of R130 to R132 and the commands PADD,
PDBL and PMUL of R134 to R136. -/

namespace Sys2Proof.Machine

/-- The slope of the tangent at (x, y) (41_point_math.md R130). -/
def tangentSlope (x y : Nat) : Nat := fmul (3 * x * x + curveA) (invP (2 * y))

/-- The slope of the chord through two points (41_point_math.md R131). -/
def chordSlope (x1 y1 x2 y2 : Nat) : Nat := fmul (fsub y2 y1) (invP (fsub x2 x1))

/-- The third point of a line of slope s through (x1, y1), reflected: x3 = s² - x1 - x2, y3 = s·(x1 - x3) - y1
(41_point_math.md R130, R131). -/
def lineThird (s x1 y1 x2 : Nat) : Point :=
  let x3 := fsub (s * s) (x1 + x2)
  .aff x3 (fsub (s * fsub x1 x3) y1)

/-- `ecDouble` (41_point_math.md R130). -/
def ecDouble : Point → Point
  | .inf => .inf
  | .aff x y => if y = 0 then .inf else lineThird (tangentSlope x y) x y x

/-- `ecAdd` (41_point_math.md R131). -/
def ecAdd : Point → Point → Point
  | .inf, Q => Q
  | P, .inf => P
  | .aff x1 y1, .aff x2 y2 =>
    if x1 = x2 ∧ y1 ≠ y2 then .inf
    else if x1 = x2 ∧ y1 = y2 then ecDouble (.aff x1 y1)
    else lineThird (chordSlope x1 y1 x2 y2) x1 y1 x2

/-- The loop of `ecMul` over bits i - 1 down to 0 (41_point_math.md R132). -/
def ecMulLoop (P : Point) (k : Nat) : Nat → Point → Point
  | 0, R => R
  | i + 1, R => ecMulLoop P k i (if k.testBit i then ecAdd (ecDouble R) P else ecDouble R)

/-- `ecMul`, double-and-add from bit 255 (41_point_math.md R132). -/
def ecMul (P : Point) (k : Nat) : Point := ecMulLoop P k 256 .inf

/-- P has order m: m is the least positive scalar whose multiple of P is INF (00_scope.md R13). -/
def Point.hasOrder (P : Point) (m : Nat) : Prop :=
  0 < m ∧ ecMul P m = .inf ∧ ∀ k, 0 < k → k < m → ecMul P k ≠ .inf

/-- The facts of 00_scope.md R13 about the constants: n is prime, n·G = INF, and every affine point that satisfies the
curve equation has order n and y ≠ 0. "The rules never depend on these facts for their definition", so no meaning uses
them; `Laws.curveFacts_hold` proves them of this model. -/
def curveFacts : Prop :=
  Nat.Prime curveN ∧ ecMul basePoint curveN = .inf ∧
    ∀ x y, (Point.aff x y).valid = true → (Point.aff x y).hasOrder curveN ∧ y ≠ 0

/-- `execPADD` of 41_point_math.md R134 as a function of the operands: A is checked before B. -/
def paddResult (o : OperandFile) : CmdResult :=
  match checkPoint (operandA o) with
  | .error c => .error c
  | .ok () =>
    match checkPoint (operandB o) with
    | .error c => .error c
    | .ok () => .ok (ecAdd (operandA o) (operandB o))

/-- `execPDBL` of 41_point_math.md R135: B is not read. -/
def pdblResult (o : OperandFile) : CmdResult :=
  match checkPoint (operandA o) with
  | .error c => .error c
  | .ok () => .ok (ecDouble (operandA o))

/-- `execPMUL` of 41_point_math.md R136: A is checked even when K = 0. -/
def pmulResult (o : OperandFile) : CmdResult :=
  match checkPoint (operandA o) with
  | .error c => .error c
  | .ok () => .ok (ecMul (operandA o) o.k.toNat)

/-- PADD (41_point_math.md R134). -/
def execPadd (s : State) : Host.Outcome State Fault Refusal := .next (complete (paddResult s.ops) s)

/-- PDBL (41_point_math.md R135). -/
def execPdbl (s : State) : Host.Outcome State Fault Refusal := .next (complete (pdblResult s.ops) s)

/-- PMUL (41_point_math.md R136). -/
def execPmul (s : State) : Host.Outcome State Fault Refusal := .next (complete (pmulResult s.ops) s)

end Sys2Proof.Machine
end

