-- ==== Sys2Proof/Machine/PointDecoder.lean ====
section
/-! DEFINITION. The source's PointDecoder (42_point_decoder.md): the square root for p ≡ 3 (mod 4), decompression, and
the commands SQRT and DECOMP. -/

namespace Sys2Proof.Machine

/-- `sqrtCandidate` with E = (p + 1) / 4 (42_point_decoder.md R150). -/
def sqrtCandidate (a : Nat) : Nat := powMod curveP a ((curveP + 1) / 4)

/-- `isRoot` (42_point_decoder.md R151). -/
def isRoot (c a : Nat) : Bool := c * c % curveP == a

/-- `decompress` (42_point_decoder.md R152). -/
def decompress (x : Nat) (wantEven : Bool) : CmdResult :=
  let y2 := (x * x * x + curveB) % curveP
  let c := sqrtCandidate y2
  if isRoot c y2 then .ok (.aff x (if (c % 2 == 0) == wantEven then c else curveP - c))
  else .error .pointNotOnCurve

/-- `execSQRT` of 42_point_decoder.md R154. -/
def sqrtResult (o : OperandFile) : CmdResult :=
  let a := o.ax.toNat
  if curveP ≤ a then .error .operandRange
  else if isRoot (sqrtCandidate a) a then .ok (.aff (sqrtCandidate a) 0)
  else .error .noSquareRoot

/-- `execDECOMP` of 42_point_decoder.md R155: the even root is wanted when ODD is 0. -/
def decompResult (odd : Nat) (o : OperandFile) : CmdResult :=
  if curveP ≤ o.ax.toNat then .error .operandRange else decompress o.ax.toNat (odd == 0)

/-- SQRT (42_point_decoder.md R154). -/
def execSqrt (s : State) : Host.Outcome State Fault Refusal := .next (complete (sqrtResult s.ops) s)

/-- DECOMP (42_point_decoder.md R155). -/
def execDecomp (odd : Nat) (s : State) : Host.Outcome State Fault Refusal :=
  .next (complete (decompResult odd s.ops) s)

end Sys2Proof.Machine
end

