-- ==== Sys2Proof/Machine/SignatureRecovery.lean ====
section
/-! DEFINITION. The source's SignatureRecovery (43_signature_recovery.md): public-key recovery in its ten steps, the
normalisation of v, and the commands RECOVER and RECOVERV. -/

namespace Sys2Proof.Machine

/-- `ecNeg`, with `ecNeg(INF) = INF` (43_signature_recovery.md R172). -/
def ecNeg : Point → Point
  | .inf => .inf
  | .aff x y => .aff x ((curveP - y) % curveP)

/-- Steps 5 to 9: the point r⁻¹·(s·R - e·G) (43_signature_recovery.md R170, R174). -/
def recoveredKey (R : Point) (r s e : Nat) : Point :=
  ecMul (ecAdd (ecMul R s) (ecNeg (ecMul basePoint (e % curveN)))) (invN r)

/-- Steps 4 to 10, once step 3 has decoded R (43_signature_recovery.md R170). -/
def recoverFrom (R : Point) (r s e : Nat) : CmdResult :=
  if r % curveN = 0 then .error .invalidSignature
  else
    match recoveredKey R r s e with
    | .inf => .error .recoveryFailed
    | .aff x y => .ok (.aff x y)

/-- `recoverPublicKey` (43_signature_recovery.md R170): the first step that fails ends it. -/
def recoverPublicKey (r s e recid : Nat) : CmdResult :=
  if recid ≠ 0 ∧ recid ≠ 1 then .error .invalidRecoveryId
  else if curveP ≤ r then .error .recoveryFailed
  else
    match decompress r (recid % 2 == 0) with
    | .error _ => .error .recoveryFailed
    | .ok R => recoverFrom R r s e

/-- `normalizeV`: the recovery id of a v byte, by integer addition without wrap (43_signature_recovery.md R176). -/
def normalizeV (v : Nat) : Except ErrorCode Nat :=
  let v1 := if v = 27 ∨ v = 28 then v else v + 27
  if v1 = 27 ∨ v1 = 28 then .ok (v1 - 27) else .error .invalidSignature

/-- `execRECOVER` of 43_signature_recovery.md R175. -/
def recoverResult (recid : Nat) (o : OperandFile) : CmdResult :=
  recoverPublicKey o.sigR.toNat o.sigS.toNat o.digest.toNat recid

/-- `execRECOVERV` of 43_signature_recovery.md R177: v is tested first. -/
def recovervResult (v : Nat) (o : OperandFile) : CmdResult :=
  match normalizeV v with
  | .error c => .error c
  | .ok recid => recoverPublicKey o.sigR.toNat o.sigS.toNat o.digest.toNat recid

/-- RECOVER (43_signature_recovery.md R175). -/
def execRecover (recid : Nat) (s : State) : Host.Outcome State Fault Refusal :=
  .next (complete (recoverResult recid s.ops) s)

/-- RECOVERV (43_signature_recovery.md R177). -/
def execRecoverv (v : Nat) (s : State) : Host.Outcome State Fault Refusal :=
  .next (complete (recovervResult v s.ops) s)

end Sys2Proof.Machine
end

