-- ==== Sys2Proof/Machine/Dispatch.lean ====
section
/-! DEFINITION. The dispatch function of 40_command_execution.md R117: one arm for each command. -/

namespace Sys2Proof.Machine

def exec (i : Instr) (s : State) : Host.Outcome State Fault Refusal :=
  match i with
  | .padd => Sys2Proof.Machine.execPadd s
  | .pdbl => Sys2Proof.Machine.execPdbl s
  | .pmul => Sys2Proof.Machine.execPmul s
  | .sqrt => Sys2Proof.Machine.execSqrt s
  | .decomp odd => Sys2Proof.Machine.execDecomp odd s
  | .recover recid => Sys2Proof.Machine.execRecover recid s
  | .recoverv v => Sys2Proof.Machine.execRecoverv v s

end Sys2Proof.Machine
end

