-- ==== Sys2Proof/Machine/Engine.lean ====
section
/-! DEFINITION. The engine step (40_command_execution.md R112 to R117) and the next event of the total order of
20_memory.md R61. -/

namespace Sys2Proof.Machine

/-- The completion of the latched command word: decode it and run the command, or complete with ILLEGAL_COMMAND
(40_command_execution.md R115, R117; 30_encoding.md R73). -/
def runCommand (s : State) : Host.Outcome State Fault Refusal :=
  match decode s.cmd with
  | .ok i => exec i s
  | .error _ => .next (complete (.error .illegalCommand) s)

/-- An engine step: progress while more than one step is left (40_command_execution.md R114), the completion when one
is left (R115), nothing while BUSY = 0 (60_exceptions.md R224). BUSY = 1 with no step left is in no reachable state;
the command then completes (notes/assumptions/6.md). -/
def engineStep (s : State) : Host.Outcome State Fault Refusal :=
  if s.busy then
    if s.remaining ≤ 1 then runCommand s else .next { s with remaining := s.remaining - 1 }
  else .next s

/-- An event while the reset input is held: only its release changes anything (70_reset_and_hazards.md R230,
93_implementation_defined.md K-19). -/
def heldEvent (s : State) : Host.Outcome State Fault Refusal :=
  match s.events with
  | .resetRelease :: es => .next { s with resetHeld := false, events := es }
  | .resetAssert :: es => .next (engineReset { s with events := es })
  | _ => .fault .heldInReset

/-- An event while the reset input is not held. With no event listed the engine goes on by itself. -/
def liveEvent (s : State) : Host.Outcome State Fault Refusal :=
  match s.events with
  | [] => engineStep s
  | .engine :: es => engineStep { s with events := es }
  | .host op :: es => hostAccess op { s with events := es }
  | .resetAssert :: es => .next (engineReset { s with resetHeld := true, events := es })
  | .resetRelease :: es => .next { s with events := es }

/-- The next event of the total order of 20_memory.md R61. -/
def nextEvent (s : State) : Host.Outcome State Fault Refusal :=
  if s.resetHeld then heldEvent s else liveEvent s

end Sys2Proof.Machine
end

