-- ==== Sys2Proof/Machine/Step.lean ====
section
/-! DEFINITION. One step of the machine: the next event of the total order of 20_memory.md R61. The engine fetches no
program (10_state.md R20): its "next instruction" is the command word latched in CMD. -/

namespace Sys2Proof.Machine

/-- One step: one event. -/
def step (s : State) : Host.Outcome State Fault Refusal := nextEvent s

/-- The state in which the very next step completes the command whose word is given: the word stands in CMD, accepted,
and the engine's last step for it is the next event (notes/assumptions/7.md). -/
def State.withFetchWord (s : State) (nbits w : Nat) : State := placeCommand (tableWord nbits w) s

end Sys2Proof.Machine
end

