-- ==== Sys2Proof/Machine/HostProgram.lean ====
section
/-! DEFINITION. The host's side: the assembler syntax for commands (30_encoding.md R77), the host accesses at window
offsets and the pseudo-instructions with their expansions (R78, R79), and the big-endian bytes a host holds
(20_memory.md R54, 43_signature_recovery.md R178). -/

namespace Sys2Proof.Machine

/-- The word of a command, if the assembler accepts its operand (30_encoding.md R77). -/
def assemble (i : Instr) : Option Word32 := if i.wellFormed then some (encode i) else none

/-- `wr off, v` (30_encoding.md R78). -/
def wrOp (off : Nat) (v : Word32) : HostOp := .wr (Config.ecrBase + off) .word v

/-- `rd off -> name` (30_encoding.md R78). -/
def rdOp (off : Nat) (name : String) : HostOp := .rd (Config.ecrBase + off) .word name

/-- `poll off, mask, val` (30_encoding.md R78). -/
def pollOp (off : Nat) (mask val : Word32) : HostOp := .poll (Config.ecrBase + off) mask val

/-- `cmd mnemonic`, if the assembler accepts the command (30_encoding.md R77, R79). -/
def cmdOps (i : Instr) : Option (List HostOp) := (assemble i).map fun w => [wrOp CtrlReg.cmd.offset w]

/-- `ld256 REG, imm`: eight writes, most significant word first (30_encoding.md R79). -/
def ld256Ops (r : WideReg) (imm : Word256) : List HostOp :=
  (List.range 8).map (fun j => wrOp (r.offset + 4 * j) (wordOf imm j))

/-- The name under which `rd256` keeps word j: name.w0 to name.w7 (30_encoding.md R79). -/
def wordName (name : String) (j : Nat) : String := name ++ ".w" ++ toString j

/-- The reads of `rd256 REG -> name`: eight, into name.w0 to name.w7 (30_encoding.md R79). -/
def rd256Ops (r : WideReg) (name : String) : List HostOp :=
  (List.range 8).map (fun j => rdOp (r.offset + 4 * j) (wordName name j))

/-- The value the host keeps under a name: the one read last (30_encoding.md R78). -/
def hostWord (s : State) (name : String) : Option Word32 := s.hostVals.lookup name

/-- The 256-bit value of eight words, word 0 the most significant (20_memory.md R53). -/
def joinWords (w : Nat → Word32) : Word256 := w 0 ++ w 1 ++ w 2 ++ w 3 ++ w 4 ++ w 5 ++ w 6 ++ w 7

/-- The value of `rd256 REG -> name`: name = name.w0, ..., name.w7 joined, once the host has all eight
(30_encoding.md R79). -/
def hostValue256 (s : State) (name : String) : Option Word256 :=
  if (List.range 8).all (fun j => (hostWord s (wordName name j)).isSome) then
    some (joinWords fun j => (hostWord s (wordName name j)).getD 0)
  else none

/-- `flags ainf, binf` (30_encoding.md R79). -/
def flagsOps (ainf binf : Bool) : List HostOp :=
  [wrOp CtrlReg.opflags.offset (0#30 ++ BitVec.ofBool binf ++ BitVec.ofBool ainf)]

/-- `wait`: until DONE = 1 (30_encoding.md R79). -/
def waitOps : List HostOp := [pollOp CtrlReg.status.offset 0x00000002#32 0x00000002#32]

/-- `run mnemonic`, if the assembler accepts the command (30_encoding.md R79). -/
def runOps (i : Instr) : Option (List HostOp) := (cmdOps i).map (· ++ waitOps)

/-- `ack` (30_encoding.md R79). -/
def ackOps : List HostOp := [wrOp CtrlReg.irqpend.offset 0x00000001#32]

/-- `clrwerr` (30_encoding.md R79). -/
def clrwerrOps : List HostOp := [wrOp CtrlReg.status.offset 0x00010000#32]

/-- The 256-bit integer of the big-endian bytes b (10_state.md R32, 20_memory.md R54). -/
def valueOfBytes (b : List (BitVec 8)) : Nat := b.foldl (fun v x => v * 256 + x.toNat) 0

/-- Word j of a 32-byte big-endian field, `b[4j]` in bits 31:24 (20_memory.md R54). -/
def wordOfBytes (b : List (BitVec 8)) (j : Nat) : Word32 :=
  b.getD (4 * j) 0 ++ b.getD (4 * j + 1) 0 ++ b.getD (4 * j + 2) 0 ++ b.getD (4 * j + 3) 0

/-- The four bytes of a word, bits 31:24 first (20_memory.md R54). -/
def bytesOfWord (w : Word32) : List (BitVec 8) :=
  [w.extractLsb' 24 8, w.extractLsb' 16 8, w.extractLsb' 8 8, w.extractLsb' 0 8]

/-- The 64 bytes a host hashes: the eight words of QX, then those of QY (43_signature_recovery.md R178). -/
def publicKeyBytes (s : State) : List (BitVec 8) :=
  (List.range 8).flatMap (fun j => bytesOfWord (wordOf s.qx j)) ++
    (List.range 8).flatMap (fun j => bytesOfWord (wordOf s.qy j))

end Sys2Proof.Machine
end

