-- ==== Sys2Proof/Safety.lean ====
section
/-! DEFINITION. What the claims are about: the invariants of the engine's lifecycle and results, which registers a
command reads (10_state.md R38), and when a completion is the next event. -/

namespace Sys2Proof.Machine

/-- STATUS and the hidden counter fit together (10_state.md R25, R37): BUSY and DONE are never 1 together, ERR only
with DONE, ERRCODE is 0 exactly without ERR, no reserved code, and steps are left exactly while BUSY = 1. -/
abbrev State.lifecycleOk (s : State) : Prop :=
  ¬(s.busy = true ∧ s.done = true) ∧ (s.err = true → s.done = true) ∧ (s.err = false ↔ s.errcode = 0) ∧
    s.errcode.toNat ≤ 7 ∧ (s.busy = true ↔ 0 < s.remaining)

/-- The result registers hold reduced values, and 0 beside QINF = 1 (10_state.md R33, 40_command_execution.md R104). -/
abbrev State.resultOk (s : State) : Prop :=
  s.qx.toNat < curveP ∧ s.qy.toNat < curveP ∧ (s.qinf = true → s.qx = 0 ∧ s.qy = 0)

/-- BUSY = 0 and DONE = 0 holds only between reset and the first accept (10_state.md R25): nothing but what the host
can write while idle differs from reset. -/
abbrev State.freshOk (s : State) : Prop :=
  s.busy = false → s.done = false →
    s.cmd = 0 ∧ s.qx = 0 ∧ s.qy = 0 ∧ s.qinf = false ∧ s.werr = false ∧ s.doneip = false

/-- While reset is held the engine is in its reset state (70_reset_and_hazards.md R230). -/
abbrev State.heldOk (s : State) : Prop := s.resetHeld = true → engineReset s = s

/-- The result registers after a success of this command: a valid point (40_command_execution.md R110), never INF for
DECOMP, RECOVER and RECOVERV (42_point_decoder.md R155, 43_signature_recovery.md R175); QY = 0 after SQRT (R154). -/
def resultFits (i : Instr) (s : State) : Bool :=
  match i with
  | .padd => s.result.valid
  | .pdbl => s.result.valid
  | .pmul => s.result.valid
  | .sqrt => s.qinf == false && s.qy == 0
  | .decomp _ => s.qinf == false && s.result.valid
  | .recover _ => s.qinf == false && s.result.valid
  | .recoverv _ => s.qinf == false && s.result.valid

/-- DONE = 1 without ERR: CMD still holds a legal word, and the result registers hold a result of that command. -/
def State.outcomeFits (s : State) : Bool :=
  match decode s.cmd with
  | .ok i => resultFits i s
  | .error _ => false

/-- The result registers fit the command that completed last, if it succeeded. -/
abbrev State.outcomeOk (s : State) : Prop := s.done = true → s.err = false → s.outcomeFits = true

/-- The invariant of the engine: every step keeps it. -/
abbrev State.Inv (s : State) : Prop :=
  s.lifecycleOk ∧ s.resultOk ∧ s.freshOk ∧ s.heldOk ∧ s.outcomeOk

/-- The next event is an engine step: one is listed first, or none is listed (that the engine then goes on by itself is
the model's choice, notes/assumptions/4.md). `rest` are the events after it. -/
abbrev State.engineNext (s : State) (rest : List Event) : Prop :=
  (s.events = [] ∧ rest = []) ∨ s.events = .engine :: rest

/-- The next event is the completion of the command in flight (40_command_execution.md R115). -/
abbrev State.completesNext (s : State) (rest : List Event) : Prop :=
  s.resetHeld = false ∧ s.busy = true ∧ s.remaining = 1 ∧ s.engineNext rest

/-- The two operand files agree on operand A as far as a command reads it (10_state.md R30, R38). -/
abbrev sameA (o o' : OperandFile) : Prop := o.ainf = o'.ainf ∧ (o.ainf = false → o.ax = o'.ax ∧ o.ay = o'.ay)

/-- The two operand files agree on operand B as far as a command reads it (10_state.md R30, R38). -/
abbrev sameB (o o' : OperandFile) : Prop := o.binf = o'.binf ∧ (o.binf = false → o.bx = o'.bx ∧ o.by_ = o'.by_)

/-- The two operand files agree on SIG_R, SIG_S and DIGEST (10_state.md R38). -/
abbrev sameSignature (o o' : OperandFile) : Prop := o.sigR = o'.sigR ∧ o.sigS = o'.sigS ∧ o.digest = o'.digest

/-- The two operand files agree on every register the command reads (10_state.md R38). -/
def sameReads (i : Instr) (o o' : OperandFile) : Prop :=
  match i with
  | .padd => sameA o o' ∧ sameB o o'
  | .pdbl => sameA o o'
  | .pmul => sameA o o' ∧ o.k = o'.k
  | .sqrt => o.ax = o'.ax
  | .decomp _ => o.ax = o'.ax
  | .recover _ => sameSignature o o'
  | .recoverv _ => sameSignature o o'

/-- A coordinate of an affine point is not a FieldElement (40_command_execution.md R111). -/
def outOfRange : Point → Prop
  | .inf => False
  | .aff x y => curveP ≤ x ∨ curveP ≤ y

/-- An affine point fails the curve equation (40_command_execution.md R111). -/
def offCurve : Point → Prop
  | .inf => False
  | .aff x y => y * y % curveP ≠ (x * x * x + 7) % curveP

/-- x is the x-coordinate of a point: x³ + 7 has a square root (42_point_decoder.md R152). -/
def hasPoint (x : Nat) : Prop := ∃ y, y * y % curveP = (x * x * x + 7) % curveP

/-- From s to t a command succeeded with result q: Q is q, and no error is recorded (40_command_execution.md R115,
R116). -/
abbrev succeededAs (s t : State) (q : Point) : Prop :=
  t.err = s.err ∧ t.errcode = s.errcode ∧ t.result = q ∧ (q = .inf → t.qx = 0 ∧ t.qy = 0)

/-- From s to t a command failed with this code, and the result registers keep their values
(40_command_execution.md R115, R116). -/
abbrev failedAs (s t : State) (code : BitVec 4) : Prop :=
  t.err = true ∧ t.errcode = code ∧ t.qx = s.qx ∧ t.qy = s.qy ∧ t.qinf = s.qinf

/-- A host access that the engine answers: a 32-bit access in the window at a multiple of 4 (20_memory.md R50). -/
def HostOp.legal : HostOp → Bool
  | .wr addr size _ => size == .word && (windowOffset addr).any (· % 4 == 0)
  | .rd addr size _ => size == .word && (windowOffset addr).any (· % 4 == 0)
  | .poll addr _ _ => (windowOffset addr).any (· % 4 == 0)

/-- An event after which the machine goes on and no command is discarded. -/
def Event.harmless : Event → Bool
  | .host op => op.legal
  | .engine => true
  | .resetAssert => false
  | .resetRelease => true

end Sys2Proof.Machine
end

