-- ==== Sys2Proof/Certificates/Slice0/Obligations.lean ====
section
/-! DEFINITION. The statements for the provers, from the numbered rules of spec/. `succeededAs s t q` says that from s
to t a command succeeded with result q, `failedAs s t c` that it failed with code c and kept the result registers
(Safety.lean). -/

open Sys2Proof Sys2Proof.Machine

/-! ## Encoding -/

/-- Decoding the word of a well-formed command gives the command back, with every operand at every value its field
admits (30_encoding.md R70, R72, R75, R77). -/
def Obligations.DecodeInvertsEncode : Prop := ∀ i : Instr, i.wellFormed = true → decode (encode i) = .ok i

/-- A word that decodes is the word of the decoded command, which is well-formed: no bit of a legal word is ignored
(30_encoding.md R74, R75). -/
def Obligations.EncodeInvertsDecode : Prop :=
  ∀ (w : Word32) (i : Instr), decode w = .ok i → i.wellFormed = true ∧ encode i = w

/-- 30_encoding.md R74: "The legal words are exactly" the ten listed and RECOVERV's 256, each with its command; every
other word is illegal. -/
def Obligations.LegalWordsAreTheListedOnes : Prop :=
  ∀ (w : Word32) (i : Instr), decode w = .ok i ↔
    (w, i) ∈ [(0x00000001#32, Instr.padd), (0x00000002#32, .pdbl), (0x00000003#32, .pmul), (0x00000004#32, .sqrt),
              (0x00000005#32, .decomp 0), (0x00000105#32, .decomp 1), (0x00000006#32, .recover 0),
              (0x00000106#32, .recover 1), (0x00000206#32, .recover 2), (0x00000306#32, .recover 3)] ∨
    ∃ v < 256, w = BitVec.ofNat 32 (0x07 + v * 0x100) ∧ i = .recoverv v

/-- 30_encoding.md R73: which words are illegal, and that the completion of an illegal word fails with
ILLEGAL_COMMAND, whatever the operands, and writes no result. An illegal word is accepted like any other. -/
def Obligations.IllegalWordsFail : Prop :=
  (∀ w : Word32, (∃ e, decode w = .error e) ↔
    w.toNat % 16 = 0 ∨ 8 ≤ w.toNat % 16 ∨ w.toNat / 16 % 16 ≠ 0 ∨ w.toNat / 65536 ≠ 0 ∨
    (w.toNat % 16 ≤ 4 ∧ w.toNat / 256 % 256 ≠ 0) ∨
    (w.toNat % 16 = 5 ∧ 2 ≤ w.toNat / 256 % 256) ∨
    (w.toNat % 16 = 6 ∧ 4 ≤ w.toNat / 256 % 256)) ∧
  (∀ (s : State) (w : Word32), s.busy = false → (busWrite 0x008 w s).cmd = w ∧ (busWrite 0x008 w s).busy = true) ∧
  (∀ (s : State) (rest : List Event) (e : IllegalWord), s.completesNext rest → decode s.cmd = .error e →
    ∃ t, step s = .next t ∧ failedAs s t 0x1 ∧ t.busy = false ∧ t.done = true ∧ t.doneip = true ∧ t.ops = s.ops)

/-- The decoder and spec/opcode_table.json agree: a legal word belongs to exactly one row, that of its command's
mnemonic, and an illegal word to none (30_encoding.md R71, R73, R74). -/
def Obligations.DecodeAgreesWithOpcodeTable : Prop :=
  ∀ w : Word32, opcodeTable.filter (·.covers w) =
    match decode w with
    | .ok i => opcodeTable.filter (·.mnemonic == i.mnemonic)
    | .error _ => []

/-- 30_encoding.md R77: the words of the assembler's table, written out, decode to the commands they stand for. -/
def Obligations.ListedWordsDecode : Prop :=
  decode 0x00000001#32 = .ok .padd ∧ decode 0x00000002#32 = .ok .pdbl ∧ decode 0x00000003#32 = .ok .pmul ∧
  decode 0x00000004#32 = .ok .sqrt ∧ decode 0x00000005#32 = .ok (.decomp 0) ∧
  decode 0x00000105#32 = .ok (.decomp 1) ∧ decode 0x00000206#32 = .ok (.recover 2) ∧
  decode 0x00001B07#32 = .ok (.recoverv 27) ∧ assemble (.decomp 2) = none ∧ assemble (.recover 4) = none ∧
  assemble (.recoverv 256) = none

/-! ## The step and the lifecycle of a command -/

/-- When the completion of a legal command word is the next event, the step is the command's meaning at the state with
that event taken (40_command_execution.md R115, R117). -/
def Obligations.StepRunsDecodedCommand : Prop :=
  ∀ (s : State) (rest : List Event) (i : Instr), s.completesNext rest → decode s.cmd = .ok i →
    step s = exec i { s with events := rest }

/-- The word that `withFetchWord` places is the command the very next step runs, in every state, and the events
already listed come after it (model: notes/assumptions/7.md). -/
def Obligations.PlacedCommandRunsNext : Prop :=
  ∀ (s : State) (i : Instr), i.wellFormed = true →
    step (s.withFetchWord 32 (encode i).toNat) =
      exec i { s with cmd := encode i, busy := true, done := false, err := false, errcode := 0, remaining := 1,
                      resetHeld := false }

/-- 40_command_execution.md R114 and 60_exceptions.md R224: while more than one step is left, an engine step takes one
off and "changes nothing the host can read"; "when BUSY = 0 it does nothing". -/
def Obligations.EngineStepBeforeCompletionIsInvisible : Prop :=
  ∀ (s : State) (rest : List Event), s.resetHeld = false → s.engineNext rest →
    (s.busy = true → 1 < s.remaining →
      ∃ t, step s = .next t ∧ t.remaining = s.remaining - 1 ∧ t.busy = true ∧ t.events = rest ∧
        (∀ off, busRead t off = busRead s off) ∧ t.irq = s.irq ∧ t.hostVals = s.hostVals) ∧
    (s.busy = false → step s = .next { s with events := rest })

/-- 40_command_execution.md R113: the accept, for every word, legal or not; with BUSY = 1 the write is dropped. -/
def Obligations.AcceptStartsTheCommand : Prop :=
  ∀ (s : State) (w : Word32),
    (s.busy = false → ∃ latency, 1 ≤ latency ∧
      busWrite 0x008 w s = { s with cmd := w, busy := true, done := false, err := false, errcode := 0,
                                    remaining := latency }) ∧
    (s.busy = true → busWrite 0x008 w s = { s with werr := true })

/-- 40_command_execution.md R119, the frame of every command: it completes, and beside the lifecycle bits only STATUS,
IRQPEND, QX and QY can differ; every other word of the window reads as before. -/
def Obligations.CommandWritesOnlyItsOutcome : Prop :=
  ∀ (i : Instr) (s : State), ∃ t, exec i s = .next t ∧
    t.busy = false ∧ t.done = true ∧ t.doneip = true ∧ t.remaining = 0 ∧
    t.cmd = s.cmd ∧ t.ops = s.ops ∧ t.werr = s.werr ∧ t.doneie = s.doneie ∧
    t.resetHeld = s.resetHeld ∧ t.events = s.events ∧ t.hostVals = s.hostVals ∧
    ∀ off, off ≠ 0x00C → off ≠ 0x014 → ¬(0x200 ≤ off ∧ off < 0x240) → busRead t off = busRead s off

/-- 60_exceptions.md R202: a failed command records only ERR and a code that is not 0 (beside the lifecycle bits of
every completion); QX, QY and QINF "keep the last successful result", CMD and every operand register their values. A
command that records no error leaves ERR and ERRCODE. -/
def Obligations.FailedCommandKeepsTheResult : Prop :=
  ∀ (i : Instr) (s : State), s.err = false → ∃ t, exec i s = .next t ∧
    (t.err = true → t.errcode ≠ 0 ∧
      t = { s with busy := false, done := true, err := true, errcode := t.errcode, doneip := true, remaining := 0 }) ∧
    (t.err = false → t.errcode = s.errcode)

/-- 40_command_execution.md R118 with 10_state.md R38: a command's outcome depends on the registers listed for it and
on nothing else in the state. -/
def Obligations.CommandReadsOnlyItsRegisters : Prop :=
  ∀ (i : Instr) (s s' : State), sameReads i s.ops s'.ops → ∃ t t', exec i s = .next t ∧ exec i s' = .next t' ∧
    ((∃ q, succeededAs s t q ∧ succeededAs s' t' q ∧ t.qx = t'.qx ∧ t.qy = t'.qy ∧ t.qinf = t'.qinf) ∨
     (∃ c, failedAs s t c ∧ failedAs s' t' c))

/-- 60_exceptions.md R203 and the codes of R201: which codes each command can fail with; POINT_NOT_ON_CURVE is never
reported by RECOVER or RECOVERV. -/
def Obligations.ErrorCodesByCommand : Prop :=
  ∀ (i : Instr) (s : State), s.err = false → ∃ t, exec i s = .next t ∧ (t.err = true →
    match i with
    | .padd => t.errcode = 0x2 ∨ t.errcode = 0x3
    | .pdbl => t.errcode = 0x2 ∨ t.errcode = 0x3
    | .pmul => t.errcode = 0x2 ∨ t.errcode = 0x3
    | .sqrt => t.errcode = 0x2 ∨ t.errcode = 0x4
    | .decomp _ => t.errcode = 0x2 ∨ t.errcode = 0x3
    | .recover _ => t.errcode = 0x5 ∨ t.errcode = 0x6 ∨ t.errcode = 0x7
    | .recoverv _ => t.errcode = 0x5 ∨ t.errcode = 0x7)

/-- 20_memory.md R58, R59: while a command is in flight no event but reset changes an operand register, an operand
flag or the latched word. -/
def Obligations.OperandsFrozenWhileBusy : Prop :=
  ∀ s t : State, s.busy = true → s.events.head? ≠ some .resetAssert → step s = .next t →
    t.ops = s.ops ∧ t.cmd = s.cmd

/-- 10_state.md R33 and 70_reset_and_hazards.md R242: QX, QY and QINF change only at a completion that records no error
(from a state of the lifecycle of R25, where ERR = 0 while BUSY = 1, it leaves ERR = 0), or by reset, which leaves 0. -/
def Obligations.ResultChangesOnlyOnSuccess : Prop :=
  ∀ s t : State, step s = .next t → (t.qx ≠ s.qx ∨ t.qy ≠ s.qy ∨ t.qinf ≠ s.qinf) →
    (s.busy = true ∧ s.remaining ≤ 1 ∧ t.busy = false ∧ t.done = true ∧ t.err = s.err ∧
      t.errcode = s.errcode ∧ (s.lifecycleOk → t.err = false ∧ t.errcode = 0)) ∨
    (s.events.head? = some .resetAssert ∧ t.qx = 0 ∧ t.qy = 0 ∧ t.qinf = false)

/-- 70_reset_and_hazards.md R247 with 20_memory.md R58, R59: a command in flight completes, whatever answered host
accesses and engine steps are still to come, and its outcome is that of the word and the operands it was accepted
with. That an engine step follows a failing poll, that the events are finitely many and that the engine goes on when
none is listed are the model's choices (notes/assumptions/5.md, 13.md, 4.md). -/
def Obligations.CommandInFlightCompletes : Prop :=
  ∀ s : State, s.resetHeld = false → s.busy = true → (∀ e ∈ s.events, e.harmless = true) →
    ∃ k t u, Host.Core.run Sys2Proof.core k s = .next t ∧ runCommand s = .next u ∧
      t.busy = false ∧ t.done = true ∧ t.doneip = true ∧ t.cmd = s.cmd ∧ t.ops = s.ops ∧
      t.err = u.err ∧ t.errcode = u.errcode ∧ t.qx = u.qx ∧ t.qy = u.qy ∧ t.qinf = u.qinf

/-! ## Point arithmetic -/

/-- 40_command_execution.md R103: `inv_p(a)` and `inv_n(a)` are the unique inverses. -/
def Obligations.InversesAreUnique : Prop :=
  (∀ a, a % curveP ≠ 0 → ∀ b, (1 ≤ b ∧ b < curveP ∧ a * b % curveP = 1) ↔ b = invP a) ∧
  (∀ a, a % curveN ≠ 0 → ∀ b, (1 ≤ b ∧ b < curveN ∧ a * b % curveN = 1) ↔ b = invN a)

/-- 41_point_math.md R130: `ecDouble` by its slope, as congruences modulo p; no valid point has y = 0. -/
def Obligations.EcDoubleIsTheTangentRule : Prop :=
  ecDouble .inf = .inf ∧ (∀ x, ecDouble (.aff x 0) = .inf) ∧
  (∀ x y, x < curveP → y < curveP → y ≠ 0 → ∃ l x' y' : Nat, ecDouble (.aff x y) = .aff x' y' ∧
    x' < curveP ∧ y' < curveP ∧
    (l : ℤ) * (2 * y) ≡ 3 * x * x [ZMOD curveP] ∧
    (x' : ℤ) ≡ l * l - 2 * x [ZMOD curveP] ∧
    (y' : ℤ) ≡ l * (x - x') - y [ZMOD curveP]) ∧
  ∀ x y, (Point.aff x y).valid = true → y ≠ 0

/-- 41_point_math.md R131: `ecAdd`, with the slope of the chord as congruences modulo p; two different valid points of
one x are negatives. -/
def Obligations.EcAddIsTheChordRule : Prop :=
  (∀ Q, ecAdd .inf Q = Q) ∧ (∀ P, ecAdd P .inf = P) ∧
  (∀ x y1 y2, y1 ≠ y2 → ecAdd (.aff x y1) (.aff x y2) = .inf) ∧
  (∀ x y, ecAdd (.aff x y) (.aff x y) = ecDouble (.aff x y)) ∧
  (∀ x1 y1 x2 y2, x1 < curveP → y1 < curveP → x2 < curveP → y2 < curveP → x1 ≠ x2 →
    ∃ l x3 y3 : Nat, ecAdd (.aff x1 y1) (.aff x2 y2) = .aff x3 y3 ∧ x3 < curveP ∧ y3 < curveP ∧
      (l : ℤ) * (x2 - x1) ≡ y2 - y1 [ZMOD curveP] ∧
      (x3 : ℤ) ≡ l * l - x1 - x2 [ZMOD curveP] ∧
      (y3 : ℤ) ≡ l * (x1 - x3) - y1 [ZMOD curveP]) ∧
  ∀ x y1 y2, (Point.aff x y1).valid = true → (Point.aff x y2).valid = true → y1 ≠ y2 → y2 = curveP - y1

/-- 41_point_math.md R132: `ecMul` is double-and-add over the binary representation of k, most significant bit first;
k = 0 gives INF, k = 1 gives P, and INF stays INF. -/
def Obligations.EcMulIsDoubleAndAdd : Prop :=
  (∀ P, ecMul P 0 = .inf) ∧ (∀ P, ecMul P 1 = P) ∧ (∀ k < 2 ^ 256, ecMul .inf k = .inf) ∧
  ∀ P j, j < 2 ^ 255 → ecMul P (2 * j) = ecDouble (ecMul P j) ∧ ecMul P (2 * j + 1) = ecAdd (ecDouble (ecMul P j)) P

/-- 41_point_math.md R134: PADD checks A, then B, range before curve equation, then returns the sum; no error arises
after the checks. -/
def Obligations.PaddChecksThenAdds : Prop :=
  encode .padd = 0x00000001#32 ∧ ∀ s : State, ∃ t, exec .padd s = .next t ∧ t.busy = false ∧ t.done = true ∧ t.doneip = true ∧
    (outOfRange (operandA s.ops) → failedAs s t 0x2) ∧
    (¬outOfRange (operandA s.ops) → offCurve (operandA s.ops) → failedAs s t 0x3) ∧
    (¬outOfRange (operandA s.ops) → ¬offCurve (operandA s.ops) → outOfRange (operandB s.ops) → failedAs s t 0x2) ∧
    (¬outOfRange (operandA s.ops) → ¬offCurve (operandA s.ops) → ¬outOfRange (operandB s.ops) →
      offCurve (operandB s.ops) → failedAs s t 0x3) ∧
    (¬outOfRange (operandA s.ops) → ¬offCurve (operandA s.ops) → ¬outOfRange (operandB s.ops) →
      ¬offCurve (operandB s.ops) → succeededAs s t (ecAdd (operandA s.ops) (operandB s.ops)))

/-- 41_point_math.md R135: PDBL checks A only, then returns its double, which is not INF for an
affine A. -/
def Obligations.PdblChecksThenDoubles : Prop :=
  encode .pdbl = 0x00000002#32 ∧ ∀ s : State, ∃ t, exec .pdbl s = .next t ∧ t.busy = false ∧ t.done = true ∧ t.doneip = true ∧
    (outOfRange (operandA s.ops) → failedAs s t 0x2) ∧
    (¬outOfRange (operandA s.ops) → offCurve (operandA s.ops) → failedAs s t 0x3) ∧
    (¬outOfRange (operandA s.ops) → ¬offCurve (operandA s.ops) → succeededAs s t (ecDouble (operandA s.ops)) ∧
      (s.ops.ainf = false → t.qinf = false))

/-- 41_point_math.md R136: PMUL checks A, even when K = 0, then returns the multiple; K is never checked. -/
def Obligations.PmulChecksThenMultiplies : Prop :=
  encode .pmul = 0x00000003#32 ∧ ∀ s : State, ∃ t, exec .pmul s = .next t ∧ t.busy = false ∧ t.done = true ∧ t.doneip = true ∧
    (outOfRange (operandA s.ops) → failedAs s t 0x2) ∧
    (¬outOfRange (operandA s.ops) → offCurve (operandA s.ops) → failedAs s t 0x3) ∧
    (¬outOfRange (operandA s.ops) → ¬offCurve (operandA s.ops) →
      succeededAs s t (ecMul (operandA s.ops) s.ops.k.toNat))

/-- 41_point_math.md R135: "an affine valid A never gives INF". -/
def Obligations.PdblOfAffineIsAffine : Prop :=
  ∀ s : State, s.ops.ainf = false → (operandA s.ops).valid = true →
    ∃ t, exec .pdbl s = .next t ∧ t.err = s.err ∧ t.qinf = false ∧ t.qx.toNat < curveP ∧ 0 < t.qy.toNat ∧
      t.qy.toNat < curveP ∧ t.result.valid = true

/-- The group-law reading of 41_point_math.md R133: multiplying by a sum of scalars is adding the multiples. -/
def Obligations.EcMulAddsScalars : Prop :=
  ∀ (P : Point) (j k : Nat), P.valid = true → j + k < 2 ^ 256 →
    ecMul P (j + k) = ecAdd (ecMul P j) (ecMul P k) ∧ (ecMul P (j + k)).valid = true

/-- The facts of 00_scope.md R13 about the constants (n is prime, n·G = INF, every affine point of the curve has order n
and y ≠ 0), and 41_point_math.md R133: PMUL by K is PMUL by K mod n, and for an affine A the result is INF exactly
when K mod n is 0. -/
def Obligations.PmulReducesTheScalar : Prop :=
  curveFacts ∧ ∀ s : State, (operandA s.ops).valid = true → ∃ t, exec .pmul s = .next t ∧
    succeededAs s t (ecMul (operandA s.ops) (s.ops.k.toNat % curveN)) ∧
    (operandA s.ops ≠ .inf → (t.qinf = true ↔ s.ops.k.toNat % curveN = 0))

/-! ## Square root and decompression -/

/-- 42_point_decoder.md R154 with R150, R151: SQRT returns AX^((p+1)/4) mod p if its square is AX, and fails
otherwise. -/
def Obligations.SqrtReturnsTheCandidate : Prop :=
  encode .sqrt = 0x00000004#32 ∧ ∀ s : State, ∃ t, exec .sqrt s = .next t ∧ t.busy = false ∧ t.done = true ∧ t.doneip = true ∧
    (curveP ≤ s.ops.ax.toNat → failedAs s t 0x2) ∧
    (s.ops.ax.toNat < curveP → ∀ c, c = s.ops.ax.toNat ^ ((curveP + 1) / 4) % curveP →
      (c * c % curveP = s.ops.ax.toNat → succeededAs s t (.aff c 0)) ∧
      (c * c % curveP ≠ s.ops.ax.toNat → failedAs s t 0x4))

/-- 42_point_decoder.md R151, R154: SQRT fails with NO_SQUARE_ROOT only when AX has no square root at all; otherwise
QX is a root. -/
def Obligations.SqrtFindsEveryRoot : Prop :=
  ∀ s : State, s.ops.ax.toNat < curveP → ∃ t, exec .sqrt s = .next t ∧
    ((∃ c, c * c % curveP = s.ops.ax.toNat) →
      t.err = s.err ∧ t.errcode = s.errcode ∧ t.qx.toNat < curveP ∧
      t.qx.toNat * t.qx.toNat % curveP = s.ops.ax.toNat ∧ t.qy = 0 ∧ t.qinf = false) ∧
    ((¬∃ c, c * c % curveP = s.ops.ax.toNat) → failedAs s t 0x4)

/-- 42_point_decoder.md R155 with R152: DECOMP returns the point of x-coordinate AX whose y has the wanted parity. -/
def Obligations.DecompReturnsTheWantedPoint : Prop :=
  encode (.decomp 0) = 0x00000005#32 ∧ encode (.decomp 1) = 0x00000105#32 ∧ ∀ (s : State) (odd : Nat), odd < 2 → ∃ t, exec (.decomp odd) s = .next t ∧
    t.busy = false ∧ t.done = true ∧ t.doneip = true ∧
    (curveP ≤ s.ops.ax.toNat → failedAs s t 0x2) ∧
    (s.ops.ax.toNat < curveP → ¬hasPoint s.ops.ax.toNat → failedAs s t 0x3) ∧
    (s.ops.ax.toNat < curveP → hasPoint s.ops.ax.toNat → ∃ y, succeededAs s t (.aff s.ops.ax.toNat y) ∧
      y < curveP ∧ y % 2 = odd ∧ (Point.aff s.ops.ax.toNat y).valid = true)

/-- 42_point_decoder.md R155: "the even and the odd result for one x are Aff(x, y) and Aff(x, p − y), negatives of each
other". -/
def Obligations.DecompParitiesAreNegatives : Prop :=
  ∀ s : State, s.ops.ax.toNat < curveP → hasPoint s.ops.ax.toNat →
    ∃ t0 t1, exec (.decomp 0) s = .next t0 ∧ exec (.decomp 1) s = .next t1 ∧
      t0.qx = s.ops.ax ∧ t1.qx = s.ops.ax ∧ t0.qy.toNat + t1.qy.toNat = curveP ∧
      t0.qy.toNat % 2 = 0 ∧ t1.qy.toNat % 2 = 1 ∧ ecNeg t0.result = t1.result

/-! ## Public-key recovery -/

/-- 43_signature_recovery.md R170, R171, R173 and 60_exceptions.md R205: the first failing step of RECOVER decides the
code. -/
def Obligations.RecoverStopsAtTheFirstFailure : Prop :=
  ∀ (s : State) (recid : Nat), ∃ t, exec (.recover recid) s = .next t ∧
    (2 ≤ recid → failedAs s t 0x6) ∧
    (recid < 2 → curveP ≤ s.ops.sigR.toNat → failedAs s t 0x7) ∧
    (recid < 2 → s.ops.sigR.toNat < curveP → ¬hasPoint s.ops.sigR.toNat → failedAs s t 0x7) ∧
    (recid < 2 → s.ops.sigR.toNat < curveP → hasPoint s.ops.sigR.toNat → s.ops.sigR.toNat % curveN = 0 →
      failedAs s t 0x5)

/-- 43_signature_recovery.md R174: Q = ecMul(ecAdd(ecMul(R, s), ecNeg(ecMul(G, e mod n))), inv_n(r)), where R is the
point of x-coordinate r with the parity of the recovery id; INF fails with RECOVERY_FAILED. -/
def Obligations.RecoverReturnsTheKey : Prop :=
  ∀ (s : State) (recid y u : Nat) (Q : Point), recid < 2 → s.ops.sigR.toNat < curveP → y < curveP →
    y * y % curveP = (s.ops.sigR.toNat * s.ops.sigR.toNat * s.ops.sigR.toNat + 7) % curveP → y % 2 = recid →
    s.ops.sigR.toNat % curveN ≠ 0 → 1 ≤ u → u < curveN → s.ops.sigR.toNat * u % curveN = 1 →
    Q = ecMul (ecAdd (ecMul (.aff s.ops.sigR.toNat y) s.ops.sigS.toNat)
          (ecNeg (ecMul basePoint (s.ops.digest.toNat % curveN)))) u →
    ∃ t, exec (.recover recid) s = .next t ∧ (Q = .inf → failedAs s t 0x7) ∧ (Q ≠ .inf → succeededAs s t Q)

/-- 43_signature_recovery.md R173: INVALID_SIGNATURE from RECOVER comes only from r = n, which gives it; r = 0 gives
RECOVERY_FAILED. -/
def Obligations.InvalidSignatureOnlyForOrder : Prop :=
  ∀ (s : State) (recid : Nat), recid < 2 → s.err = false → ∃ t, exec (.recover recid) s = .next t ∧
    (t.err = true → t.errcode = 0x5 → s.ops.sigR.toNat = curveN) ∧
    (s.ops.sigR.toNat = curveN → failedAs s t 0x5) ∧ (s.ops.sigR.toNat = 0 → failedAs s t 0x7)

/-- 43_signature_recovery.md R176, R177: RECOVERV is RECOVER 0 for v = 0 and 27, RECOVER 1 for v = 1 and 28, and fails
with INVALID_SIGNATURE for every other v, whatever the operands. -/
def Obligations.RecovervNormalisesV : Prop :=
  ∀ (s : State) (v : Nat), v < 256 → encode (.recoverv v) = BitVec.ofNat 32 (0x07 + v * 0x100) ∧ ∃ t, exec (.recoverv v) s = .next t ∧
    (v = 0 ∨ v = 27 → exec (.recover 0) s = .next t) ∧ (v = 1 ∨ v = 28 → exec (.recover 1) s = .next t) ∧
    (v ≠ 0 → v ≠ 1 → v ≠ 27 → v ≠ 28 → failedAs s t 0x5)

/-- Recovery undoes signing, the source's first test property (95_test_vectors.md T6): for a private key d, a nonce k
and a digest e, with r the x-coordinate of k·G (below n) and s·k ≡ e + r·d (mod n), RECOVER with the parity of the
y-coordinate of k·G returns d·G. -/
def Obligations.RecoverInvertsSigning : Prop :=
  ∀ (st : State) (d k y : Nat), 1 ≤ d → d < curveN → k < 2 ^ 256 →
    ecMul basePoint k = .aff st.ops.sigR.toNat y → 0 < st.ops.sigR.toNat → st.ops.sigR.toNat < curveN →
    st.ops.sigS.toNat * k % curveN = (st.ops.digest.toNat + st.ops.sigR.toNat * d) % curveN →
    ∃ t, exec (.recover (y % 2)) st = .next t ∧ succeededAs st t (ecMul basePoint d) ∧ t.qinf = false

/-! ## Results and invariants -/

/-- 40_command_execution.md R110: "every non-infinity point constructed by this system must satisfy the curve
equation": every command that returns a point returns a valid one. -/
def Obligations.ResultsAreValidPoints : Prop :=
  ∀ (i : Instr) (s : State), i ≠ .sqrt → ∃ t, exec i s = .next t ∧ (t.err = false → t.result.valid = true)

/-- The invariant of Safety.lean holds after reset (70_reset_and_hazards.md R230, R232). -/
def Obligations.InvariantHoldsAtReset : Prop := State.reset.Inv

/-- Every step keeps the invariant of Safety.lean: BUSY and DONE never together, ERR and ERRCODE in step, QX and QY
reduced and 0 beside QINF, nothing but reset values before the first accept and while reset is held, and after a
success a result that fits the command in CMD (10_state.md R25, R33, R37; 40_command_execution.md R110). -/
def Obligations.StepKeepsInvariant : Prop := ∀ s t : State, s.Inv → step s = .next t → t.Inv

/-! ## The register window -/

/-- 10_state.md R22, R23, R35: ID, VERSION and the curve constants read as given in every state, and no write changes
anything. -/
def Obligations.ConstantsAreHardwired : Prop :=
  ∀ (s : State) (v : Word32),
    busRead s 0x000 = 0x4B323536#32 ∧ busRead s 0x004 = 0x00010000#32 ∧
    busWrite 0x000 v s = s ∧ busWrite 0x004 v s = s ∧
    (∀ j < 8, busRead s (0x300 + 4 * j) = BitVec.ofNat 32 ((2 ^ 256 - 2 ^ 32 - 977) / 2 ^ (224 - 32 * j)) ∧
      busRead s (0x320 + 4 * j) = BitVec.ofNat 32
        (0xFFFFFFFFFFFFFFFFFFFFFFFFFFFFFFFEBAAEDCE6AF48A03BBFD25E8CD0364141 / 2 ^ (224 - 32 * j)) ∧
      busRead s (0x340 + 4 * j) = BitVec.ofNat 32
        (0x79BE667EF9DCBBAC55A06295CE870B07029BFCDB2DCE28D959F2815B16F81798 / 2 ^ (224 - 32 * j)) ∧
      busRead s (0x360 + 4 * j) = BitVec.ofNat 32
        (0x483ADA7726A3C4655DA4FBFC0E1108A8FD17B448A68554199C47D08FFB10D4B8 / 2 ^ (224 - 32 * j))) ∧
    (∀ off, 0x300 ≤ off → off < 0x380 → busWrite off v s = s)

/-- 10_state.md R24: CMD reads the last accepted word, 0 after reset; nothing but an accept or reset changes it. -/
def Obligations.CmdHoldsTheLastAcceptedWord : Prop :=
  busRead State.reset 0x008 = 0 ∧
  (∀ (s : State) (w : Word32), s.busy = false →
    busRead (busWrite 0x008 w s) 0x008 = w ∧ (busWrite 0x008 w s).busy = true) ∧
  (∀ (s : State) (w : Word32), s.busy = true → busWrite 0x008 w s = { s with werr := true }) ∧
  (∀ s t : State, step s = .next t → t.cmd ≠ s.cmd →
    (s.busy = false ∧ t.busy = true ∧
      ∃ addr, s.events.head? = some (.host (.wr addr .word t.cmd)) ∧ windowOffset addr = some 0x008) ∨
    (s.events.head? = some .resetAssert ∧ t.cmd = 0))

/-- 10_state.md R25: what each bit of STATUS reads, and what a write to STATUS changes. -/
def Obligations.StatusLayout : Prop :=
  ∀ (s : State) (v : Word32),
    (busRead s 0x00C).getLsbD 0 = s.busy ∧ (busRead s 0x00C).getLsbD 1 = s.done ∧
    (busRead s 0x00C).getLsbD 2 = s.err ∧ (busRead s 0x00C).getLsbD 3 = s.qinf ∧
    (busRead s 0x00C).extractLsb' 4 4 = 0 ∧ (busRead s 0x00C).extractLsb' 8 4 = s.errcode ∧
    (busRead s 0x00C).extractLsb' 12 4 = 0 ∧ (busRead s 0x00C).getLsbD 16 = s.werr ∧
    (busRead s 0x00C).extractLsb' 17 15 = 0 ∧
    busWrite 0x00C v s = { s with werr := s.werr && !v.getLsbD 16 }

/-- 10_state.md R26: WERR is set by a dropped write and cleared only by a write of 1 to STATUS bit 16 or by reset; no
command reads or changes it. -/
def Obligations.WerrIsSticky : Prop :=
  (∀ (s : State) (off : Nat) (v : Word32), s.busy = true →
    (off = 0x008 ∨ off = 0x018 ∨ (off % 4 = 0 ∧ 0x100 ≤ off ∧ off < 0x200)) → (busWrite off v s).werr = true) ∧
  (∀ (s : State) (v : Word32), (busWrite 0x00C v s).werr = (s.werr && !v.getLsbD 16)) ∧
  (∀ s : State, (engineReset s).werr = false) ∧
  (∀ s t : State, step s = .next t → s.werr = true → t.werr = false →
    (∃ addr v, s.events.head? = some (.host (.wr addr .word v)) ∧ windowOffset addr = some 0x00C ∧
      v.getLsbD 16 = true) ∨ s.events.head? = some .resetAssert) ∧
  (∀ s t : State, step s = .next t → s.werr = false → t.werr = true → s.busy = true ∧
    ∃ addr v off, s.events.head? = some (.host (.wr addr .word v)) ∧ windowOffset addr = some off ∧
      (off = 0x008 ∨ off = 0x018 ∨ (0x100 ≤ off ∧ off < 0x200))) ∧
  (∀ (i : Instr) (s t : State) (b : Bool), exec i s = .next t →
    t.werr = s.werr ∧ exec i { s with werr := b } = .next { t with werr := b })

/-- 10_state.md R27: IRQEN, written and read, whether or not BUSY = 1. -/
def Obligations.InterruptEnableRegister : Prop :=
  State.reset.doneie = false ∧
  ∀ (s : State) (v : Word32), busWrite 0x010 v s = { s with doneie := v.getLsbD 0 } ∧
    busRead s 0x010 = if s.doneie then 1 else 0

/-- 10_state.md R28: IRQPEND: set by every completion, cleared by writing 1, kept by an accept, whether or not
BUSY = 1. -/
def Obligations.InterruptPendingRegister : Prop :=
  State.reset.doneip = false ∧
  (∀ (s : State) (v : Word32), busWrite 0x014 v s = { s with doneip := s.doneip && !v.getLsbD 0 } ∧
    (busRead s 0x014 = if s.doneip then 1 else 0) ∧ (busWrite 0x008 v s).doneip = s.doneip) ∧
  (∀ (s t : State) (rest : List Event), s.completesNext rest → step s = .next t → t.doneip = true)

/-- 10_state.md R29: OPFLAGS, written while BUSY = 0, and read. -/
def Obligations.OperandFlagsRegister : Prop :=
  State.reset.ops.ainf = false ∧ State.reset.ops.binf = false ∧
  ∀ (s : State) (v : Word32),
    (s.busy = false → busWrite 0x018 v s = { s with ops := { s.ops with ainf := v.getLsbD 0, binf := v.getLsbD 1 } } ∧
      busRead (busWrite 0x018 v s) 0x018 = v &&& 3) ∧
    busRead s 0x018 = (if s.ops.ainf then 1 else 0) ||| (if s.ops.binf then 2 else 0)

/-- 10_state.md R34: reserved offsets read 0 and ignore writes; the reserved bits of the 32-bit registers read 0 and what
is written to them makes no difference. -/
def Obligations.ReservedReadsZero : Prop :=
  ∀ (s : State) (v : Word32),
    (∀ off, (0x01C ≤ off ∧ off < 0x100) ∨ (0x240 ≤ off ∧ off < 0x300) ∨ (0x380 ≤ off ∧ off < 0x1000) →
      busRead s off = 0 ∧ busWrite off v s = s) ∧
    busRead s 0x00C &&& 0xFFFEF0F0#32 = 0 ∧ busRead s 0x010 &&& 0xFFFFFFFE#32 = 0 ∧
    busRead s 0x014 &&& 0xFFFFFFFE#32 = 0 ∧ busRead s 0x018 &&& 0xFFFFFFFC#32 = 0 ∧
    busWrite 0x00C v s = busWrite 0x00C (v &&& 0x00010000#32) s ∧ busWrite 0x010 v s = busWrite 0x010 (v &&& 1) s ∧
    busWrite 0x014 v s = busWrite 0x014 (v &&& 1) s ∧ busWrite 0x018 v s = busWrite 0x018 (v &&& 3) s

/-- 20_memory.md R51: an access of the window that is not a 32-bit access at a multiple of 4 is a bus error. -/
def Obligations.BadAccessFaults : Prop :=
  ∀ (s : State) (off : Nat) (es : List Event), s.resetHeld = false → off < 4096 →
    (∀ size v, s.events = .host (.wr (Config.ecrBase + off) size v) :: es → size ≠ .word ∨ off % 4 ≠ 0 →
      step s = .fault .busError) ∧
    (∀ size name, s.events = .host (.rd (Config.ecrBase + off) size name) :: es → size ≠ .word ∨ off % 4 ≠ 0 →
      step s = .fault .busError) ∧
    (∀ mask val, s.events = .host (.poll (Config.ecrBase + off) mask val) :: es → off % 4 ≠ 0 →
      step s = .fault .busError)

/-- 20_memory.md R52: an address outside the window is not the engine's (model: a write, read or poll there is refused by
name, notes/assumptions/8.md), and an aligned write inside it takes effect. -/
def Obligations.WindowBounds : Prop :=
  (∀ (s : State) (addr : Nat) (es : List Event), s.resetHeld = false →
    (addr < Config.ecrBase ∨ Config.ecrBase + 4096 ≤ addr) →
    (∀ size v, s.events = .host (.wr addr size v) :: es → step s = .refused .outsideWindow) ∧
    (∀ size name, s.events = .host (.rd addr size name) :: es → step s = .refused .outsideWindow) ∧
    (∀ mask val, s.events = .host (.poll addr mask val) :: es → step s = .refused .outsideWindow)) ∧
  (∀ (s : State) (off : Nat) (v : Word32) (es : List Event), s.resetHeld = false → off < 4096 → off % 4 = 0 →
    s.events = .host (.wr (Config.ecrBase + off) .word v) :: es →
    step s = .next (busWrite off v { s with events := es }))

/-- 20_memory.md R53: the eight words of a 256-bit register, most significant first, and bit i of word j. -/
def Obligations.WideRegisterWordOrder : Prop :=
  ∀ (s : State) (r : WideReg),
    busRead s (r.offset + 0) ++ busRead s (r.offset + 4) ++ busRead s (r.offset + 8) ++ busRead s (r.offset + 12) ++
      busRead s (r.offset + 16) ++ busRead s (r.offset + 20) ++ busRead s (r.offset + 24) ++
      busRead s (r.offset + 28) = s.wide r ∧
    ∀ j < 8, ∀ i < 32, (busRead s (r.offset + 4 * j)).getLsbD i = (s.wide r).getLsbD (224 - 32 * j + i)

/-- 20_memory.md R55: a read returns the value its register has, 0 at a reserved offset, and changes nothing but what
the host keeps; BUSY makes no difference. A poll (30_encoding.md R78) whose value matches is over and changes nothing
at all; one whose value does not match comes again. That exactly one engine step comes before it then is the model's
choice (notes/assumptions/5.md). -/
def Obligations.ReadReturnsAndChangesNothing : Prop :=
  (∀ (s : State) (r : CtrlReg), busRead s r.offset = s.ctrl r) ∧
  (∀ (s : State) (r : WideReg) (off : Nat), off % 4 = 0 → r.offset ≤ off → off < r.offset + 32 →
    busRead s off = wordOf (s.wide r) ((off - r.offset) / 4)) ∧
  (∀ (s : State) (off : Nat), (0x01C ≤ off ∧ off < 0x100) ∨ (0x240 ≤ off ∧ off < 0x300) ∨
    (0x380 ≤ off ∧ off < 0x1000) → busRead s off = 0) ∧
  (∀ (s : State) (off : Nat) (name : String) (es : List Event), s.resetHeld = false → off < 4096 → off % 4 = 0 →
    s.events = .host (.rd (Config.ecrBase + off) .word name) :: es →
    step s = .next { s with events := es, hostVals := (name, busRead s off) :: s.hostVals }) ∧
  (∀ (s : State) (off : Nat) (mask val : Word32) (es : List Event), s.resetHeld = false → off < 4096 → off % 4 = 0 →
    s.events = .host (.poll (Config.ecrBase + off) mask val) :: es →
    (busRead s off &&& mask = val → step s = .next { s with events := es }) ∧
    (busRead s off &&& mask ≠ val →
      step s = .next { s with events := .engine :: .host (.poll (Config.ecrBase + off) mask val) :: es }))

/-- 20_memory.md R56: while idle, a write to a word of an operand register replaces that word and nothing else: every
other word of the window, and STATUS, read as before. -/
def Obligations.IdleWriteReplacesOneWord : Prop :=
  ∀ (s : State) (off : Nat) (v : Word32), s.busy = false → off % 4 = 0 → 0x100 ≤ off → off < 0x200 →
    ∃ o, busWrite off v s = { s with ops := o } ∧ busRead (busWrite off v s) off = v ∧
      o.ainf = s.ops.ainf ∧ o.binf = s.ops.binf ∧
      ∀ off', off' % 4 = 0 → off' ≠ off → busRead (busWrite off v s) off' = busRead s off'

/-- 20_memory.md R57: a write to a read-only register or a reserved offset changes nothing, whether or not BUSY = 1. -/
def Obligations.ReadOnlyWritesIgnored : Prop :=
  ∀ (s : State) (off : Nat) (v : Word32),
    off = 0x000 ∨ off = 0x004 ∨ (0x01C ≤ off ∧ off < 0x100) ∨ 0x200 ≤ off → busWrite off v s = s

/-- 20_memory.md R58: what a write does while BUSY = 1. -/
def Obligations.BusyWritesAreDropped : Prop :=
  ∀ (s : State) (off : Nat) (v : Word32), s.busy = true →
    (off = 0x008 ∨ off = 0x018 ∨ (off % 4 = 0 ∧ 0x100 ≤ off ∧ off < 0x200) →
      busWrite off v s = { s with werr := true }) ∧
    (off = 0x00C → busWrite off v s = { s with werr := s.werr && !v.getLsbD 16 }) ∧
    (off = 0x010 → busWrite off v s = { s with doneie := v.getLsbD 0 }) ∧
    (off = 0x014 → busWrite off v s = { s with doneip := s.doneip && !v.getLsbD 0 })

/-- 60_exceptions.md R210: IRQ = DONEIE and DONEIP; every completion raises it if enabled and nothing else sets DONEIP, the
enable raises it at once, an accept keeps it, clearing DONEIP lowers it and reset clears both. -/
def Obligations.InterruptOutput : Prop :=
  (∀ s : State, s.irq = true ↔ s.doneie = true ∧ s.doneip = true) ∧
  (∀ (s : State) (rest : List Event), s.completesNext rest → ∃ t, step s = .next t ∧ t.doneip = true ∧
    t.irq = s.doneie) ∧
  (∀ s t : State, step s = .next t → s.doneip = false → t.doneip = true →
    s.busy = true ∧ s.remaining ≤ 1 ∧ t.busy = false ∧ t.done = true) ∧
  (∀ s : State, (busWrite 0x010 1 s).irq = s.doneip ∧ (busWrite 0x010 0 s).irq = false ∧
    (busWrite 0x014 1 s).irq = false ∧ (busWrite 0x014 0 s).irq = s.irq) ∧
  (∀ (s : State) (w : Word32), (busWrite 0x008 w s).doneip = s.doneip ∧ (busWrite 0x008 w s).irq = s.irq) ∧
  (∀ s : State, (engineReset s).doneie = false ∧ (engineReset s).doneip = false)

/-! ## Reset -/

/-- 70_reset_and_hazards.md R230: the reset event, in every state: every register and flag at its reset value, the
constants unchanged, IRQ 0. While reset is held "no host access is answered and no engine step happens"; that the step
is then the fault `heldInReset` is the model's choice (93_implementation_defined.md K-19: "stuck while held";
notes/assumptions/10.md). -/
def Obligations.ResetRestoresEverything : Prop :=
  (∀ (s : State) (es : List Event), s.events = .resetAssert :: es → ∃ t, step s = .next t ∧
    t = { State.reset with resetHeld := true, events := es, hostVals := s.hostVals } ∧ t.irq = false ∧
    (∀ off, 0x008 ≤ off → off < 0x300 → busRead t off = 0) ∧
    (∀ off, off < 0x008 ∨ 0x300 ≤ off → busRead t off = busRead s off)) ∧
  (∀ (s : State) (op : HostOp) (es : List Event), s.resetHeld = true →
    (s.events = .host op :: es ∨ s.events = .engine :: es ∨ s.events = []) → step s = .fault .heldInReset)

/-- 70_reset_and_hazards.md R231: a reset while BUSY = 1 discards the command in flight: after the release an engine step
does nothing, and the engine is idle with nothing recorded. -/
def Obligations.ResetDiscardsTheCommand : Prop :=
  ∀ (s : State) (es : List Event), s.resetHeld = false → s.busy = true →
    s.events = .resetAssert :: .resetRelease :: .engine :: es →
    Host.Core.run Sys2Proof.core 3 s = .next { State.reset with events := es, hostVals := s.hostVals }

/-- 70_reset_and_hazards.md R233: the commands on operands as reset leaves them, whatever else has been loaded. -/
def Obligations.CommandsAfterReset : Prop :=
  (operandA State.reset.ops = .aff 0 0 ∧ operandB State.reset.ops = .aff 0 0 ∧ State.reset.ops.ax = 0 ∧
    State.reset.ops.sigR = 0) ∧
  (∀ (s : State) (i : Instr), operandA s.ops = .aff 0 0 → i = .padd ∨ i = .pdbl ∨ i = .pmul →
    ∃ t, exec i s = .next t ∧ failedAs s t 0x3) ∧
  (∀ s : State, (operandA s.ops).valid = true → operandB s.ops = .aff 0 0 →
    ∃ t, exec .padd s = .next t ∧ failedAs s t 0x3) ∧
  (∀ s : State, s.ops.ax = 0 → ∃ t, exec .sqrt s = .next t ∧ succeededAs s t (.aff 0 0)) ∧
  (∀ (s : State) (odd : Nat), odd < 2 → s.ops.ax = 0 → ∃ t, exec (.decomp odd) s = .next t ∧ failedAs s t 0x3) ∧
  (∀ s : State, s.ops.sigR = 0 → ∃ t, exec (.recover 0) s = .next t ∧ failedAs s t 0x7)

/-! ## The host's programs -/

/-- 30_encoding.md R79: `ld256` on an idle engine loads the register it names and changes nothing else; `rd256` of any
256-bit register, busy or not, leaves the host with its value under the name and changes nothing else. -/
def Obligations.Ld256LoadsTheRegister : Prop :=
  (∀ (s : State) (r : WideReg) (imm : Word256) (es : List Event), s.resetHeld = false → s.busy = false →
    r.isOperand = true → s.events = (ld256Ops r imm).map .host ++ es →
    Host.Core.run Sys2Proof.core 8 s = .next { s with ops := setOperand s.ops r imm, events := es }) ∧
  (∀ (s : State) (r : WideReg) (name : String) (es : List Event), s.resetHeld = false →
    s.events = (rd256Ops r name).map .host ++ es →
    ∃ vals, Host.Core.run Sys2Proof.core 8 s = .next { s with events := es, hostVals := vals } ∧
      hostValue256 { s with events := es, hostVals := vals } name = some (s.wide r))

/-- 30_encoding.md R79: `run` of a command the assembler accepts, on an idle engine: the command is accepted, the poll
ends, and the state then holds the outcome of the command on the operands at accept, whatever the latency; `run` of any
other command is refused (R77). That the poll ends rests on the model's choices of notes/assumptions/5.md (an engine
step between two reads) and 13.md (fairness). -/
def Obligations.RunReachesTheOutcome : Prop :=
  (∀ i : Instr, i.wellFormed = false → cmdOps i = none ∧ runOps i = none) ∧
  ∀ (s : State) (i : Instr) (ops : List HostOp) (es : List Event), s.resetHeld = false → s.busy = false →
    runOps i = some ops → s.events = ops.map .host ++ es →
    ∃ k t u, Host.Core.run Sys2Proof.core k s = .next t ∧ exec i (busWrite 0x008 (encode i) s) = .next u ∧
      t.events = es ∧ t.busy = false ∧ t.done = true ∧ t.cmd = encode i ∧ t.ops = s.ops ∧
      t.err = u.err ∧ t.errcode = u.errcode ∧ t.qx = u.qx ∧ t.qy = u.qy ∧ t.qinf = u.qinf
end

