-- ==== Sys2Proof/Laws/ModArith.lean ====
section
/-! SUPPORT. What the modular arithmetic of Machine/ModArith.lean computes: `powBits` is the power of
40_command_execution.md R102, and every value is reduced. -/

namespace Sys2Proof.Laws
open Sys2Proof.Machine

theorem powBits_eq (m a : Nat) : ∀ bits e : Nat, e < 2 ^ bits → powBits m a bits e = a ^ e % m := by
  intro bits
  induction bits with
  | zero => intro e he; simp [powBits, show e = 0 by omega]
  | succ bits ih =>
    intro e he
    have hh := ih (e / 2) (by omega)
    simp only [powBits, hh]
    split
    · next h =>
      conv_rhs => rw [show e = e / 2 + e / 2 + 1 by omega, pow_succ, pow_add]
      simp [Nat.mul_mod]
    · next h =>
      conv_rhs => rw [show e = e / 2 + e / 2 by omega, pow_add]
      simp [Nat.mul_mod]

/-- 40_command_execution.md R102, for the exponents of at most 256 bits that the engine uses. -/
theorem powMod_eq (m a e : Nat) (he : e < 2 ^ 256) : powMod m a e = a ^ e % m := powBits_eq m a 256 e he

theorem curveP_pos : 0 < curveP := by decide
theorem curveN_pos : 0 < curveN := by decide
theorem curveP_lt : curveP < 2 ^ 256 := by decide
theorem curveN_lt_curveP : curveN < curveP := by decide
theorem curveP_odd : curveP % 2 = 1 := by decide
theorem curveP_mod_four : curveP % 4 = 3 := by decide

theorem modInt_lt (v : Int) (m : Nat) (hm : 0 < m) : modInt v m < m := by
  have h1 := Int.emod_lt_of_pos v (b := (m : Int)) (by omega)
  have h2 := Int.emod_nonneg v (b := (m : Int)) (by omega)
  simp only [modInt]
  omega

@[simp] theorem fadd_lt (a b : Nat) : fadd a b < curveP := Nat.mod_lt _ curveP_pos
@[simp] theorem fsub_lt (a b : Nat) : fsub a b < curveP := modInt_lt _ _ curveP_pos
@[simp] theorem fmul_lt (a b : Nat) : fmul a b < curveP := Nat.mod_lt _ curveP_pos
@[simp] theorem fneg_lt (a : Nat) : fneg a < curveP := Nat.mod_lt _ curveP_pos

theorem modInt_cast (v : Int) (m : Nat) (hm : 0 < m) : ((modInt v m : Nat) : ZMod m) = (v : ZMod m) := by
  have h2 := Int.emod_nonneg v (b := (m : Int)) (by omega)
  have h : ((modInt v m : Nat) : Int) = v % (m : Int) := by
    simp only [modInt]; omega
  calc ((modInt v m : Nat) : ZMod m) = (((modInt v m : Nat) : Int) : ZMod m) := by simp
    _ = ((v % (m : Int) : Int) : ZMod m) := by rw [h]
    _ = (v : ZMod m) := by simp

/-- In the field Z/p the operations of 40_command_execution.md R100 are the field's own. -/
@[simp] theorem fadd_cast (a b : Nat) : ((fadd a b : Nat) : ZMod curveP) = a + b := by simp [fadd]

@[simp] theorem fsub_cast (a b : Nat) : ((fsub a b : Nat) : ZMod curveP) = a - b := by
  rw [fsub, modInt_cast _ _ curveP_pos]; simp

@[simp] theorem fmul_cast (a b : Nat) : ((fmul a b : Nat) : ZMod curveP) = a * b := by simp [fmul]

/-- Two numbers below p that agree in Z/p are equal. -/
theorem eq_of_cast_eq {a b : Nat} (ha : a < curveP) (hb : b < curveP)
    (h : (a : ZMod curveP) = (b : ZMod curveP)) : a = b := by
  have := (ZMod.natCast_eq_natCast_iff' a b curveP).mp h
  rwa [Nat.mod_eq_of_lt ha, Nat.mod_eq_of_lt hb] at this

end Sys2Proof.Laws
end

