-- ==== Sys2Proof/Laws/Primes.lean ====
section
/-! SUPPORT. p and n are prime (00_scope.md R12, R13), by Pratt certificates, and so `inv_p` and `inv_n` are the
inverses of 40_command_execution.md R103. -/

namespace Sys2Proof.Laws
open Sys2Proof.Machine

/-- A Pratt certificate: g generates the units modulo m, whose order m - 1 is the product of the primes fs. -/
def prattCheck (m g : Nat) (fs : List Nat) : Bool :=
  decide (1 < m) && decide (m < 2 ^ 256) && fs.prod == m - 1 && powMod m g (m - 1) == 1 &&
    fs.all (fun q => powMod m g ((m - 1) / q) != 1)

theorem prime_of_pratt (m g : Nat) (fs : List Nat) (hc : prattCheck m g fs = true)
    (hfs : ∀ q ∈ fs, Nat.Prime q) : Nat.Prime m := by
  simp only [prattCheck, Bool.and_eq_true, decide_eq_true_eq, beq_iff_eq, List.all_eq_true, bne_iff_ne] at hc
  obtain ⟨⟨⟨⟨hm, hlt⟩, hprod⟩, hone⟩, hall⟩ := hc
  have key : ∀ e, e ≤ m → (((g : ZMod m) ^ e = 1) ↔ powMod m g e = 1) := by
    intro e he
    rw [powMod_eq _ _ _ (by omega), ← Nat.cast_pow]
    constructor
    · intro h
      have := (ZMod.natCast_eq_natCast_iff' (g ^ e) 1 m).mp (by simpa using h)
      rwa [Nat.mod_eq_of_lt hm] at this
    · intro h
      have := (ZMod.natCast_eq_natCast_iff' (g ^ e) 1 m).mpr (by rw [h, Nat.mod_eq_of_lt hm])
      simpa using this
  refine lucas_primality m (g : ZMod m) ((key _ (by omega)).mpr hone) ?_
  intro q hq hdvd
  rw [← hprod] at hdvd
  obtain ⟨r, hr, hqr⟩ := (Prime.dvd_prod_iff hq.prime).mp hdvd
  have : q = r := (Nat.prime_dvd_prime_iff_eq hq (hfs r hr)).mp hqr
  subst this
  intro h
  exact hall q hr ((key _ (le_trans (Nat.div_le_self _ _) (by omega))).mp h)

theorem prime_13331831 : Nat.Prime 13331831 := by
  refine prime_of_pratt _ 13 [2, 5, 971, 1373] (by decide +kernel) ?_
  simp only [List.mem_cons, List.not_mem_nil, or_false, forall_eq_or_imp, forall_eq]
  exact ⟨by norm_num, by norm_num, by norm_num, by norm_num⟩

theorem prime_173378833005251801 : Nat.Prime 173378833005251801 := by
  refine prime_of_pratt _ 6 [2, 2, 2, 5, 5, 2621, 24809, 13331831] (by decide +kernel) ?_
  simp only [List.mem_cons, List.not_mem_nil, or_false, forall_eq_or_imp, forall_eq]
  exact ⟨by norm_num, by norm_num, by norm_num, by norm_num, by norm_num, by norm_num, by norm_num, prime_13331831⟩

theorem prime_22149492674086928081353 : Nat.Prime 22149492674086928081353 := by
  refine prime_of_pratt _ 5 [2, 2, 2, 3, 5323, 173378833005251801] (by decide +kernel) ?_
  simp only [List.mem_cons, List.not_mem_nil, or_false, forall_eq_or_imp, forall_eq]
  exact ⟨by norm_num, by norm_num, by norm_num, by norm_num, by norm_num, prime_173378833005251801⟩

theorem prime_132896956044521568488119 : Nat.Prime 132896956044521568488119 := by
  refine prime_of_pratt _ 6 [2, 3, 22149492674086928081353] (by decide +kernel) ?_
  simp only [List.mem_cons, List.not_mem_nil, or_false, forall_eq_or_imp, forall_eq]
  exact ⟨by norm_num, by norm_num, prime_22149492674086928081353⟩

theorem prime_1206781 : Nat.Prime 1206781 := by
  refine prime_of_pratt _ 10 [2, 2, 3, 5, 20113] (by decide +kernel) ?_
  simp only [List.mem_cons, List.not_mem_nil, or_false, forall_eq_or_imp, forall_eq]
  exact ⟨by norm_num, by norm_num, by norm_num, by norm_num, by norm_num⟩

theorem prime_7240687 : Nat.Prime 7240687 := by
  refine prime_of_pratt _ 3 [2, 3, 1206781] (by decide +kernel) ?_
  simp only [List.mem_cons, List.not_mem_nil, or_false, forall_eq_or_imp, forall_eq]
  exact ⟨by norm_num, by norm_num, prime_1206781⟩

theorem prime_107590001 : Nat.Prime 107590001 := by
  refine prime_of_pratt _ 3 [2, 2, 2, 2, 5, 5, 5, 5, 7, 29, 53] (by decide +kernel) ?_
  simp only [List.mem_cons, List.not_mem_nil, or_false, forall_eq_or_imp, forall_eq]
  exact ⟨by norm_num, by norm_num, by norm_num, by norm_num, by norm_num, by norm_num, by norm_num, by norm_num, by norm_num, by norm_num, by norm_num⟩

theorem prime_255515944373312847190720520512484175977 : Nat.Prime 255515944373312847190720520512484175977 := by
  refine prime_of_pratt _ 3 [2, 2, 2, 7, 7, 11, 1627, 2657, 4423, 41201, 96557, 7240687, 107590001] (by decide +kernel) ?_
  simp only [List.mem_cons, List.not_mem_nil, or_false, forall_eq_or_imp, forall_eq]
  exact ⟨by norm_num, by norm_num, by norm_num, by norm_num, by norm_num, by norm_num, by norm_num, by norm_num, by norm_num, by norm_num, by norm_num, prime_7240687, prime_107590001⟩

theorem prime_205115282021455665897114700593932402728804164701536103180137503955397371 : Nat.Prime 205115282021455665897114700593932402728804164701536103180137503955397371 := by
  refine prime_of_pratt _ 10 [2, 3, 5, 29, 29, 31, 7723, 132896956044521568488119, 255515944373312847190720520512484175977] (by decide +kernel) ?_
  simp only [List.mem_cons, List.not_mem_nil, or_false, forall_eq_or_imp, forall_eq]
  exact ⟨by norm_num, by norm_num, by norm_num, by norm_num, by norm_num, by norm_num, by norm_num, prime_132896956044521568488119, prime_255515944373312847190720520512484175977⟩

theorem curveP_prime : Nat.Prime curveP := by
  refine prime_of_pratt _ 3 [2, 3, 7, 13441, 205115282021455665897114700593932402728804164701536103180137503955397371] (by decide +kernel) ?_
  simp only [List.mem_cons, List.not_mem_nil, or_false, forall_eq_or_imp, forall_eq]
  exact ⟨by norm_num, by norm_num, by norm_num, by norm_num, prime_205115282021455665897114700593932402728804164701536103180137503955397371⟩

theorem prime_4681609 : Nat.Prime 4681609 := by
  refine prime_of_pratt _ 23 [2, 2, 2, 3, 97, 2011] (by decide +kernel) ?_
  simp only [List.mem_cons, List.not_mem_nil, or_false, forall_eq_or_imp, forall_eq]
  exact ⟨by norm_num, by norm_num, by norm_num, by norm_num, by norm_num, by norm_num⟩

theorem prime_107361793816595537 : Nat.Prime 107361793816595537 := by
  refine prime_of_pratt _ 3 [2, 2, 2, 2, 16699, 85831, 4681609] (by decide +kernel) ?_
  simp only [List.mem_cons, List.not_mem_nil, or_false, forall_eq_or_imp, forall_eq]
  exact ⟨by norm_num, by norm_num, by norm_num, by norm_num, by norm_num, by norm_num, prime_4681609⟩

theorem prime_44706919 : Nat.Prime 44706919 := by
  refine prime_of_pratt _ 6 [2, 3, 797, 9349] (by decide +kernel) ?_
  simp only [List.mem_cons, List.not_mem_nil, or_false, forall_eq_or_imp, forall_eq]
  exact ⟨by norm_num, by norm_num, by norm_num, by norm_num⟩

theorem prime_174723607534414371449 : Nat.Prime 174723607534414371449 := by
  refine prime_of_pratt _ 3 [2, 2, 2, 17, 59, 4051, 120233, 44706919] (by decide +kernel) ?_
  simp only [List.mem_cons, List.not_mem_nil, or_false, forall_eq_or_imp, forall_eq]
  exact ⟨by norm_num, by norm_num, by norm_num, by norm_num, by norm_num, by norm_num, by norm_num, prime_44706919⟩

theorem prime_545358713 : Nat.Prime 545358713 := by
  refine prime_of_pratt _ 5 [2, 2, 2, 41, 59, 28181] (by decide +kernel) ?_
  simp only [List.mem_cons, List.not_mem_nil, or_false, forall_eq_or_imp, forall_eq]
  exact ⟨by norm_num, by norm_num, by norm_num, by norm_num, by norm_num, by norm_num⟩

theorem prime_1627771 : Nat.Prime 1627771 := by
  refine prime_of_pratt _ 3 [2, 3, 5, 29, 1871] (by decide +kernel) ?_
  simp only [List.mem_cons, List.not_mem_nil, or_false, forall_eq_or_imp, forall_eq]
  exact ⟨by norm_num, by norm_num, by norm_num, by norm_num, by norm_num⟩

theorem prime_297159362677 : Nat.Prime 297159362677 := by
  refine prime_of_pratt _ 2 [2, 2, 3, 3, 11, 461, 1627771] (by decide +kernel) ?_
  simp only [List.mem_cons, List.not_mem_nil, or_false, forall_eq_or_imp, forall_eq]
  exact ⟨by norm_num, by norm_num, by norm_num, by norm_num, by norm_num, by norm_num, prime_1627771⟩

theorem prime_29047611873442575647497758179 : Nat.Prime 29047611873442575647497758179 := by
  refine prime_of_pratt _ 2 [2, 293, 305873, 545358713, 297159362677] (by decide +kernel) ?_
  simp only [List.mem_cons, List.not_mem_nil, or_false, forall_eq_or_imp, forall_eq]
  exact ⟨by norm_num, by norm_num, by norm_num, prime_545358713, prime_297159362677⟩

theorem prime_341948486974166000522343609283189 : Nat.Prime 341948486974166000522343609283189 := by
  refine prime_of_pratt _ 2 [2, 2, 3, 3, 3, 109, 29047611873442575647497758179] (by decide +kernel) ?_
  simp only [List.mem_cons, List.not_mem_nil, or_false, forall_eq_or_imp, forall_eq]
  exact ⟨by norm_num, by norm_num, by norm_num, by norm_num, by norm_num, by norm_num, prime_29047611873442575647497758179⟩

theorem curveN_prime : Nat.Prime curveN := by
  refine prime_of_pratt _ 7 [2, 2, 2, 2, 2, 2, 3, 149, 631, 107361793816595537, 174723607534414371449, 341948486974166000522343609283189] (by decide +kernel) ?_
  simp only [List.mem_cons, List.not_mem_nil, or_false, forall_eq_or_imp, forall_eq]
  exact ⟨by norm_num, by norm_num, by norm_num, by norm_num, by norm_num, by norm_num, by norm_num, by norm_num, by norm_num, prime_107361793816595537, prime_174723607534414371449, prime_341948486974166000522343609283189⟩

/-- 40_command_execution.md R103: for a prime modulus below 2^256 and an a that is not a multiple of it, `invMod`
is the inverse. -/
theorem invMod_spec (m a : Nat) (hp : Nat.Prime m) (hlt : m < 2 ^ 256) (ha : a % m ≠ 0) :
    1 ≤ invMod m a ∧ invMod m a < m ∧ a * invMod m a % m = 1 := by
  have : Fact m.Prime := ⟨hp⟩
  have h2 := hp.two_le
  have hz : (a : ZMod m) ≠ 0 := by
    rw [Ne, ZMod.natCast_eq_zero_iff]; intro h; exact ha (Nat.mod_eq_zero_of_dvd h)
  have hmul : a * invMod m a % m = 1 := by
    have h1 : ((a * invMod m a : Nat) : ZMod m) = ((1 : Nat) : ZMod m) := by
      rw [invMod, powMod_eq _ _ _ (by omega)]
      push_cast
      rw [ZMod.natCast_mod]
      push_cast
      rw [← pow_succ', show m - 2 + 1 = m - 1 by omega, ZMod.pow_card_sub_one_eq_one hz]
    have := (ZMod.natCast_eq_natCast_iff' _ _ m).mp h1
    rwa [Nat.mod_eq_of_lt hp.one_lt] at this
  refine ⟨?_, ?_, hmul⟩
  · rcases Nat.eq_zero_or_pos (invMod m a) with h | h
    · rw [h] at hmul; simp at hmul
    · exact h
  · rw [invMod, powMod_eq _ _ _ (by omega)]; exact Nat.mod_lt _ (by omega)

/-- In Z/p, `inv_p` is the field's inverse (with 0 for 0, which no rule reaches). -/
theorem invP_cast (a : Nat) : ((invP a : Nat) : ZMod curveP) = ((a : ZMod curveP))⁻¹ := by
  have : Fact curveP.Prime := ⟨curveP_prime⟩
  rw [invP, invMod, powMod_eq _ _ _ (by decide)]
  rw [ZMod.natCast_mod]
  push_cast
  by_cases h : (a : ZMod curveP) = 0
  · rw [h, inv_zero, zero_pow (by decide)]
  · refine eq_inv_of_mul_eq_one_left ?_
    rw [← pow_succ, show curveP - 2 + 1 = curveP - 1 by decide, ZMod.pow_card_sub_one_eq_one h]

end Sys2Proof.Laws
end

