-- ==== Sys2Proof/Laws/Curve.lean ====
section
/-! SUPPORT. The group functions of 41_point_math.md R130 to R132 and 43_signature_recovery.md R172 are those of
Mathlib's group of the curve y² = x³ + 7 over Z/p, on valid points (40_command_execution.md R110). -/

namespace Sys2Proof.Laws
open Sys2Proof.Machine

/-- The curve of 00_scope.md R12 over Z/p. -/
def secp : WeierstrassCurve.Affine (ZMod curveP) := ⟨0, 0, 0, 0, 7⟩

theorem curveP_fact : Fact curveP.Prime := ⟨curveP_prime⟩

section
variable [Fact curveP.Prime]

theorem secp_elliptic : secp.IsElliptic := by
  refine ⟨?_⟩
  rw [isUnit_iff_ne_zero]
  have h : secp.Δ = ((21168 : Nat) : ZMod curveP) * (-1) := by
    simp only [WeierstrassCurve.Δ, WeierstrassCurve.b₂, WeierstrassCurve.b₄, WeierstrassCurve.b₆,
      WeierstrassCurve.b₈, secp]
    push_cast; ring
  rw [h, mul_neg_one, neg_ne_zero, Ne, ZMod.natCast_eq_zero_iff]
  exact Nat.not_dvd_of_pos_of_lt (by decide) (by decide)

/-- The point value P is the group element Q, with reduced coordinates. -/
def Represents : Point → secp.Point → Prop
  | .inf, .zero => True
  | .aff x y, .some a b _ => x < curveP ∧ y < curveP ∧ (x : ZMod curveP) = a ∧ (y : ZMod curveP) = b
  | _, _ => False

theorem onCurve_iff (x y : Nat) :
    onCurve x y = true ↔ (y : ZMod curveP) * y = (x : ZMod curveP) * x * x + 7 := by
  rw [onCurve, beq_iff_eq, ← ZMod.natCast_eq_natCast_iff']
  simp [curveA, curveB]

theorem secp_equation (x y : ZMod curveP) : secp.Equation x y ↔ y * y = x * x * x + 7 := by
  rw [WeierstrassCurve.Affine.equation_iff]
  simp only [secp]
  constructor <;> intro h
  · linear_combination h
  · linear_combination h

theorem secp_nonsingular (x y : ZMod curveP) : secp.Nonsingular x y ↔ y * y = x * x * x + 7 := by
  have := secp_elliptic
  rw [← WeierstrassCurve.Affine.equation_iff_nonsingular, secp_equation]

omit [Fact curveP.Prime] in
theorem valid_aff (x y : Nat) :
    (Point.aff x y).valid = true ↔ x < curveP ∧ y < curveP ∧ onCurve x y = true := by
  simp [Point.valid, and_assoc]

/-- The valid points of 40_command_execution.md R110 are the group's elements. -/
theorem valid_iff_represents (P : Point) : P.valid = true ↔ ∃ Q, Represents P Q := by
  cases P with
  | inf => exact ⟨fun _ => ⟨.zero, trivial⟩, fun _ => rfl⟩
  | aff x y =>
    rw [valid_aff]
    constructor
    · rintro ⟨hx, hy, h⟩
      exact ⟨.some _ _ ((secp_nonsingular _ _).mpr ((onCurve_iff x y).mp h)), hx, hy, rfl, rfl⟩
    · rintro ⟨Q, hQ⟩
      cases Q with
      | zero => exact hQ.elim
      | some a b hab =>
        obtain ⟨hx, hy, rfl, rfl⟩ := hQ
        exact ⟨hx, hy, (onCurve_iff x y).mpr ((secp_nonsingular _ _).mp hab)⟩

theorem Represents.valid {P : Point} {Q : secp.Point} (h : Represents P Q) : P.valid = true :=
  (valid_iff_represents P).mpr ⟨Q, h⟩

/-- Two point values for one group element are equal. -/
theorem Represents.unique {P P' : Point} {Q : secp.Point} (h : Represents P Q) (h' : Represents P' Q) : P = P' := by
  cases Q with
  | zero =>
    cases P with
    | aff x y => exact h.elim
    | inf =>
      cases P' with
      | inf => rfl
      | aff x y => exact h'.elim
  | some a b hab =>
    cases P with
    | inf => exact h.elim
    | aff x y =>
      cases P' with
      | inf => exact h'.elim
      | aff x' y' =>
        obtain ⟨hx, hy, hxa, hyb⟩ := h
        obtain ⟨hx', hy', hxa', hyb'⟩ := h'
        rw [eq_of_cast_eq hx hx' (hxa.trans hxa'.symm), eq_of_cast_eq hy hy' (hyb.trans hyb'.symm)]

/-- One point value stands for one group element. -/
theorem Represents.injective {P : Point} {Q Q' : secp.Point} (h : Represents P Q) (h' : Represents P Q') : Q = Q' := by
  cases P with
  | inf =>
    cases Q with
    | some a b hab => exact h.elim
    | zero =>
      cases Q' with
      | zero => rfl
      | some a b hab => exact h'.elim
  | aff x y =>
    cases Q with
    | zero => exact h.elim
    | some a b hab =>
      cases Q' with
      | zero => exact h'.elim
      | some a' b' hab' =>
        obtain ⟨_, _, rfl, rfl⟩ := h
        obtain ⟨_, _, rfl, rfl⟩ := h'
        rfl

theorem represents_inf : Represents .inf 0 := trivial

theorem represents_inf_iff (Q : secp.Point) : Represents .inf Q ↔ Q = 0 := by
  constructor
  · intro h; exact Represents.injective h represents_inf
  · rintro rfl; exact represents_inf

/-- What a line of slope s gives, in Z/p (41_point_math.md R130, R131). -/
theorem represents_lineThird {s x1 y1 x2 : Nat} {a b : ZMod curveP} (hab : secp.Nonsingular a b)
    (ha : a = (s : ZMod curveP) * s - x1 - x2) (hb : b = (s : ZMod curveP) * (x1 - a) - y1) :
    Represents (lineThird s x1 y1 x2) (.some a b hab) := by
  refine ⟨fsub_lt _ _, fsub_lt _ _, ?_, ?_⟩
  · rw [ha]; push_cast [fsub_cast]; ring
  · rw [hb, ha]; push_cast [fsub_cast]; ring

theorem represents_aff {P : Point} {a b : ZMod curveP} {hab : secp.Nonsingular a b}
    (h : Represents P (.some a b hab)) :
    ∃ x y : Nat, P = .aff x y ∧ x < curveP ∧ y < curveP ∧ (x : ZMod curveP) = a ∧ (y : ZMod curveP) = b := by
  cases P with
  | inf => exact h.elim
  | aff x y => exact ⟨x, y, rfl, h⟩

theorem secp_two_ne_zero : (2 : ZMod curveP) ≠ 0 := by
  have : ((2 : Nat) : ZMod curveP) ≠ 0 := by
    rw [Ne, ZMod.natCast_eq_zero_iff]; exact Nat.not_dvd_of_pos_of_lt (by decide) (by decide)
  simpa using this

theorem cast_eq_zero_iff_of_lt {y : Nat} (hy : y < curveP) : (y : ZMod curveP) = 0 ↔ y = 0 := by
  constructor
  · intro h; exact eq_of_cast_eq hy curveP_pos (by simpa using h)
  · rintro rfl; simp

theorem secp_negY (x y : ZMod curveP) : secp.negY x y = -y := by
  simp [WeierstrassCurve.Affine.negY, secp]

theorem secp_addX (x1 x2 l : ZMod curveP) : secp.addX x1 x2 l = l * l - x1 - x2 := by
  simp only [WeierstrassCurve.Affine.addX, secp]; ring

theorem secp_addY (x1 x2 y1 l : ZMod curveP) : secp.addY x1 x2 y1 l = l * (x1 - (l * l - x1 - x2)) - y1 := by
  simp only [WeierstrassCurve.Affine.addY, WeierstrassCurve.Affine.negAddY, secp_negY, secp_addX]; ring

/-- `ecDouble` doubles in the group (41_point_math.md R130). -/
theorem represents_double {P : Point} {Q : secp.Point} (h : Represents P Q) : Represents (ecDouble P) (Q + Q) := by
  cases Q with
  | zero =>
    have : P = .inf := Represents.unique h represents_inf
    subst this
    exact represents_inf
  | some a b hab =>
    obtain ⟨x, y, rfl, hx, hy, rfl, rfl⟩ := represents_aff h
    by_cases h0 : y = 0
    · subst h0
      rw [WeierstrassCurve.Affine.Point.add_self_of_Y_eq (by rw [secp_negY]; simp)]
      simpa [ecDouble] using represents_inf
    · have hy0 : (y : ZMod curveP) ≠ 0 := fun hc => h0 ((cast_eq_zero_iff_of_lt hy).mp hc)
      have hne : (y : ZMod curveP) ≠ secp.negY x y := by
        rw [secp_negY]; intro hc
        have : (2 : ZMod curveP) * y = 0 := by linear_combination hc
        rcases mul_eq_zero.mp this with h2 | h2
        · exact secp_two_ne_zero h2
        · exact hy0 h2
      rw [WeierstrassCurve.Affine.Point.add_self_of_Y_ne hne]
      have hs : ((tangentSlope x y : Nat) : ZMod curveP) = secp.slope x x y y := by
        rw [WeierstrassCurve.Affine.slope_of_Y_ne rfl hne, secp_negY, tangentSlope, fmul_cast, invP_cast]
        simp only [secp, curveA]
        push_cast
        rw [div_eq_mul_inv]
        congr 1
        · ring
        · congr 1; ring
      have : ecDouble (.aff x y) = lineThird (tangentSlope x y) x y x := by simp [ecDouble, h0]
      rw [this]
      refine represents_lineThird _ ?_ ?_
      · rw [secp_addX, hs]
      · rw [secp_addY, secp_addX, hs]

/-- `ecAdd` adds in the group (41_point_math.md R131). -/
theorem represents_add {P P' : Point} {Q Q' : secp.Point} (h : Represents P Q) (h' : Represents P' Q') :
    Represents (ecAdd P P') (Q + Q') := by
  cases Q with
  | zero =>
    have : P = .inf := Represents.unique h represents_inf
    subst this
    rw [← WeierstrassCurve.Affine.Point.zero_def, zero_add]
    simpa [ecAdd] using h'
  | some a b hab =>
    obtain ⟨x, y, rfl, hx, hy, rfl, rfl⟩ := represents_aff h
    cases Q' with
    | zero =>
      have : P' = .inf := Represents.unique h' represents_inf
      subst this
      rw [← WeierstrassCurve.Affine.Point.zero_def, add_zero]
      simpa [ecAdd] using h
    | some a' b' hab' =>
      obtain ⟨x', y', rfl, hx', hy', rfl, rfl⟩ := represents_aff h'
      by_cases hxx : x = x'
      · subst hxx
        by_cases hyy : y = y'
        · subst hyy
          have : ecAdd (.aff x y) (.aff x y) = ecDouble (.aff x y) := by simp [ecAdd]
          rw [this]
          exact represents_double h
        · have : ecAdd (.aff x y) (.aff x y') = .inf := by simp [ecAdd, hyy]
          rw [this, WeierstrassCurve.Affine.Point.add_of_Y_eq rfl, represents_inf_iff]
          rw [secp_negY]
          have e1 := (secp_nonsingular _ _).mp hab
          have e2 := (secp_nonsingular _ _).mp hab'
          have : ((y : ZMod curveP) - y') * (y + y') = 0 := by linear_combination e1 - e2
          rcases mul_eq_zero.mp this with h2 | h2
          · exact absurd (eq_of_cast_eq hy hy' (sub_eq_zero.mp h2)) hyy
          · exact eq_neg_of_add_eq_zero_left h2
      · have hne : (x : ZMod curveP) ≠ x' := fun hc => hxx (eq_of_cast_eq hx hx' hc)
        rw [WeierstrassCurve.Affine.Point.add_of_X_ne hne]
        have hs : ((chordSlope x y x' y' : Nat) : ZMod curveP) = secp.slope x x' y y' := by
          rw [WeierstrassCurve.Affine.slope_of_X_ne hne, chordSlope, fmul_cast, invP_cast, fsub_cast, fsub_cast,
            div_eq_mul_inv, ← neg_sub (x' : ZMod curveP) x, inv_neg]
          ring
        have : ecAdd (.aff x y) (.aff x' y') = lineThird (chordSlope x y x' y') x y x' := by
          simp [ecAdd, hxx]
        rw [this]
        refine represents_lineThird _ ?_ ?_
        · rw [secp_addX, hs]
        · rw [secp_addY, secp_addX, hs]

/-- `ecNeg` negates in the group (43_signature_recovery.md R172). -/
theorem represents_neg {P : Point} {Q : secp.Point} (h : Represents P Q) : Represents (ecNeg P) (-Q) := by
  cases Q with
  | zero =>
    have : P = .inf := Represents.unique h represents_inf
    subst this
    exact represents_inf
  | some a b hab =>
    obtain ⟨x, y, rfl, hx, hy, rfl, rfl⟩ := represents_aff h
    rw [WeierstrassCurve.Affine.Point.neg_some]
    refine ⟨hx, Nat.mod_lt _ curveP_pos, rfl, ?_⟩
    rw [secp_negY, ZMod.natCast_mod, Nat.cast_sub hy.le]; simp

/-- The loop of 41_point_math.md R132: from R, the low i bits of k are worked in. -/
theorem represents_mulLoop {P : Point} {Q : secp.Point} (h : Represents P Q) (k : Nat) :
    ∀ (i : Nat) (R : Point) (S : secp.Point), Represents R S →
      Represents (ecMulLoop P k i R) (2 ^ i • S + (k % 2 ^ i) • Q) := by
  intro i
  induction i with
  | zero => intro R S hR; simpa [ecMulLoop, Nat.mod_one] using hR
  | succ i ih =>
    intro R S hR
    have hd := represents_double hR
    simp only [ecMulLoop]
    have hk : k % 2 ^ (i + 1) = (k.testBit i).toNat * 2 ^ i + k % 2 ^ i := by
      rw [Nat.mod_pow_succ, Nat.testBit_eq_decide_div_mod_eq]
      have h2 : k / 2 ^ i % 2 < 2 := Nat.mod_lt _ (by omega)
      have : (decide (k / 2 ^ i % 2 = 1)).toNat = k / 2 ^ i % 2 := by
        rcases (show k / 2 ^ i % 2 = 0 ∨ k / 2 ^ i % 2 = 1 by omega) with h | h <;> simp [h]
      rw [this]; ring
    by_cases hb : k.testBit i = true
    · rw [if_pos hb]
      have := ih _ _ (represents_add hd h)
      convert this using 1
      rw [hk, hb, Bool.toNat_true, one_mul, add_nsmul, nsmul_add, pow_succ, mul_nsmul', two_nsmul]
      abel
    · rw [if_neg hb]
      have := ih _ _ hd
      convert this using 1
      rw [hk, Bool.eq_false_iff.mpr hb, Bool.toNat_false, zero_mul, zero_add, pow_succ, mul_nsmul', two_nsmul]

/-- `ecMul` is the multiple in the group (41_point_math.md R132). -/
theorem represents_mul {P : Point} {Q : secp.Point} (h : Represents P Q) (k : Nat) (hk : k < 2 ^ 256) :
    Represents (ecMul P k) (k • Q) := by
  have := represents_mulLoop h k 256 .inf 0 represents_inf
  rw [Nat.mod_eq_of_lt hk, nsmul_zero, zero_add] at this
  exact this

end

end Sys2Proof.Laws
end

