-- ==== Sys2Proof/Laws/State.lean ====
section
/-! SUPPORT. What each shared update of the state does to each field. -/

namespace Sys2Proof.Laws
open Sys2Proof.Machine

@[simp] theorem accept_cmd (w : Word32) (s : State) : (accept w s).cmd = w := rfl
@[simp] theorem accept_busy (w : Word32) (s : State) : (accept w s).busy = true := rfl
@[simp] theorem accept_done (w : Word32) (s : State) : (accept w s).done = false := rfl
@[simp] theorem accept_err (w : Word32) (s : State) : (accept w s).err = false := rfl
@[simp] theorem accept_errcode (w : Word32) (s : State) : (accept w s).errcode = 0 := rfl
@[simp] theorem accept_werr (w : Word32) (s : State) : (accept w s).werr = s.werr := rfl
@[simp] theorem accept_qinf (w : Word32) (s : State) : (accept w s).qinf = s.qinf := rfl
@[simp] theorem accept_doneie (w : Word32) (s : State) : (accept w s).doneie = s.doneie := rfl
@[simp] theorem accept_doneip (w : Word32) (s : State) : (accept w s).doneip = s.doneip := rfl
@[simp] theorem accept_ops (w : Word32) (s : State) : (accept w s).ops = s.ops := rfl
@[simp] theorem accept_qx (w : Word32) (s : State) : (accept w s).qx = s.qx := rfl
@[simp] theorem accept_qy (w : Word32) (s : State) : (accept w s).qy = s.qy := rfl
@[simp] theorem accept_remaining (w : Word32) (s : State) : (accept w s).remaining = Config.latency w s.ops := rfl
@[simp] theorem accept_resetHeld (w : Word32) (s : State) : (accept w s).resetHeld = s.resetHeld := rfl
@[simp] theorem accept_events (w : Word32) (s : State) : (accept w s).events = s.events := rfl
@[simp] theorem accept_hostVals (w : Word32) (s : State) : (accept w s).hostVals = s.hostVals := rfl

@[simp] theorem dropWrite_cmd (s : State) : (dropWrite s).cmd = s.cmd := rfl
@[simp] theorem dropWrite_busy (s : State) : (dropWrite s).busy = s.busy := rfl
@[simp] theorem dropWrite_done (s : State) : (dropWrite s).done = s.done := rfl
@[simp] theorem dropWrite_err (s : State) : (dropWrite s).err = s.err := rfl
@[simp] theorem dropWrite_errcode (s : State) : (dropWrite s).errcode = s.errcode := rfl
@[simp] theorem dropWrite_werr (s : State) : (dropWrite s).werr = true := rfl
@[simp] theorem dropWrite_qinf (s : State) : (dropWrite s).qinf = s.qinf := rfl
@[simp] theorem dropWrite_doneie (s : State) : (dropWrite s).doneie = s.doneie := rfl
@[simp] theorem dropWrite_doneip (s : State) : (dropWrite s).doneip = s.doneip := rfl
@[simp] theorem dropWrite_ops (s : State) : (dropWrite s).ops = s.ops := rfl
@[simp] theorem dropWrite_qx (s : State) : (dropWrite s).qx = s.qx := rfl
@[simp] theorem dropWrite_qy (s : State) : (dropWrite s).qy = s.qy := rfl
@[simp] theorem dropWrite_remaining (s : State) : (dropWrite s).remaining = s.remaining := rfl
@[simp] theorem dropWrite_resetHeld (s : State) : (dropWrite s).resetHeld = s.resetHeld := rfl
@[simp] theorem dropWrite_events (s : State) : (dropWrite s).events = s.events := rfl
@[simp] theorem dropWrite_hostVals (s : State) : (dropWrite s).hostVals = s.hostVals := rfl

@[simp] theorem writeResult_cmd (q : Point) (s : State) : (writeResult q s).cmd = s.cmd := by cases q <;> rfl
@[simp] theorem writeResult_busy (q : Point) (s : State) : (writeResult q s).busy = s.busy := by cases q <;> rfl
@[simp] theorem writeResult_done (q : Point) (s : State) : (writeResult q s).done = s.done := by cases q <;> rfl
@[simp] theorem writeResult_err (q : Point) (s : State) : (writeResult q s).err = s.err := by cases q <;> rfl
@[simp] theorem writeResult_errcode (q : Point) (s : State) : (writeResult q s).errcode = s.errcode := by cases q <;> rfl
@[simp] theorem writeResult_werr (q : Point) (s : State) : (writeResult q s).werr = s.werr := by cases q <;> rfl
@[simp] theorem writeResult_doneie (q : Point) (s : State) : (writeResult q s).doneie = s.doneie := by cases q <;> rfl
@[simp] theorem writeResult_doneip (q : Point) (s : State) : (writeResult q s).doneip = s.doneip := by cases q <;> rfl
@[simp] theorem writeResult_ops (q : Point) (s : State) : (writeResult q s).ops = s.ops := by cases q <;> rfl
@[simp] theorem writeResult_remaining (q : Point) (s : State) : (writeResult q s).remaining = s.remaining := by cases q <;> rfl
@[simp] theorem writeResult_resetHeld (q : Point) (s : State) : (writeResult q s).resetHeld = s.resetHeld := by cases q <;> rfl
@[simp] theorem writeResult_events (q : Point) (s : State) : (writeResult q s).events = s.events := by cases q <;> rfl
@[simp] theorem writeResult_hostVals (q : Point) (s : State) : (writeResult q s).hostVals = s.hostVals := by cases q <;> rfl

@[simp] theorem writeResult_inf_qx (s : State) : (writeResult .inf s).qx = 0 := rfl
@[simp] theorem writeResult_inf_qy (s : State) : (writeResult .inf s).qy = 0 := rfl
@[simp] theorem writeResult_inf_qinf (s : State) : (writeResult .inf s).qinf = true := rfl
@[simp] theorem writeResult_aff_qx (x y : Nat) (s : State) : (writeResult (.aff x y) s).qx = BitVec.ofNat 256 x := rfl
@[simp] theorem writeResult_aff_qy (x y : Nat) (s : State) : (writeResult (.aff x y) s).qy = BitVec.ofNat 256 y := rfl
@[simp] theorem writeResult_aff_qinf (x y : Nat) (s : State) : (writeResult (.aff x y) s).qinf = false := rfl

@[simp] theorem complete_cmd (r : CmdResult) (s : State) : (complete r s).cmd = s.cmd := by rcases r with c | q <;> [rfl; (cases q <;> rfl)]
@[simp] theorem complete_busy (r : CmdResult) (s : State) : (complete r s).busy = false := by rcases r with c | q <;> [rfl; (cases q <;> rfl)]
@[simp] theorem complete_done (r : CmdResult) (s : State) : (complete r s).done = true := by rcases r with c | q <;> [rfl; (cases q <;> rfl)]
@[simp] theorem complete_werr (r : CmdResult) (s : State) : (complete r s).werr = s.werr := by rcases r with c | q <;> [rfl; (cases q <;> rfl)]
@[simp] theorem complete_doneie (r : CmdResult) (s : State) : (complete r s).doneie = s.doneie := by rcases r with c | q <;> [rfl; (cases q <;> rfl)]
@[simp] theorem complete_doneip (r : CmdResult) (s : State) : (complete r s).doneip = true := by rcases r with c | q <;> [rfl; (cases q <;> rfl)]
@[simp] theorem complete_ops (r : CmdResult) (s : State) : (complete r s).ops = s.ops := by rcases r with c | q <;> [rfl; (cases q <;> rfl)]
@[simp] theorem complete_remaining (r : CmdResult) (s : State) : (complete r s).remaining = 0 := by rcases r with c | q <;> [rfl; (cases q <;> rfl)]
@[simp] theorem complete_resetHeld (r : CmdResult) (s : State) : (complete r s).resetHeld = s.resetHeld := by rcases r with c | q <;> [rfl; (cases q <;> rfl)]
@[simp] theorem complete_events (r : CmdResult) (s : State) : (complete r s).events = s.events := by rcases r with c | q <;> [rfl; (cases q <;> rfl)]
@[simp] theorem complete_hostVals (r : CmdResult) (s : State) : (complete r s).hostVals = s.hostVals := by rcases r with c | q <;> [rfl; (cases q <;> rfl)]

@[simp] theorem complete_error_qx (c : ErrorCode) (s : State) : (complete (.error c) s).qx = s.qx := rfl
@[simp] theorem complete_ok_qx (q : Point) (s : State) : (complete (.ok q) s).qx = (writeResult q s).qx := rfl
@[simp] theorem complete_error_qy (c : ErrorCode) (s : State) : (complete (.error c) s).qy = s.qy := rfl
@[simp] theorem complete_ok_qy (q : Point) (s : State) : (complete (.ok q) s).qy = (writeResult q s).qy := rfl
@[simp] theorem complete_error_qinf (c : ErrorCode) (s : State) : (complete (.error c) s).qinf = s.qinf := rfl
@[simp] theorem complete_ok_qinf (q : Point) (s : State) : (complete (.ok q) s).qinf = (writeResult q s).qinf := rfl
@[simp] theorem complete_error_err (c : ErrorCode) (s : State) : (complete (.error c) s).err = true := rfl
@[simp] theorem complete_error_errcode (c : ErrorCode) (s : State) : (complete (.error c) s).errcode = c.code := rfl
@[simp] theorem complete_ok_err (q : Point) (s : State) : (complete (.ok q) s).err = s.err := by cases q <;> rfl
@[simp] theorem complete_ok_errcode (q : Point) (s : State) : (complete (.ok q) s).errcode = s.errcode := by
  cases q <;> rfl

@[simp] theorem engineReset_cmd (s : State) : (engineReset s).cmd = State.reset.cmd := rfl
@[simp] theorem engineReset_busy (s : State) : (engineReset s).busy = State.reset.busy := rfl
@[simp] theorem engineReset_done (s : State) : (engineReset s).done = State.reset.done := rfl
@[simp] theorem engineReset_err (s : State) : (engineReset s).err = State.reset.err := rfl
@[simp] theorem engineReset_errcode (s : State) : (engineReset s).errcode = State.reset.errcode := rfl
@[simp] theorem engineReset_werr (s : State) : (engineReset s).werr = State.reset.werr := rfl
@[simp] theorem engineReset_qinf (s : State) : (engineReset s).qinf = State.reset.qinf := rfl
@[simp] theorem engineReset_doneie (s : State) : (engineReset s).doneie = State.reset.doneie := rfl
@[simp] theorem engineReset_doneip (s : State) : (engineReset s).doneip = State.reset.doneip := rfl
@[simp] theorem engineReset_ops (s : State) : (engineReset s).ops = State.reset.ops := rfl
@[simp] theorem engineReset_qx (s : State) : (engineReset s).qx = State.reset.qx := rfl
@[simp] theorem engineReset_qy (s : State) : (engineReset s).qy = State.reset.qy := rfl
@[simp] theorem engineReset_remaining (s : State) : (engineReset s).remaining = State.reset.remaining := rfl
@[simp] theorem engineReset_resetHeld (s : State) : (engineReset s).resetHeld = s.resetHeld := rfl
@[simp] theorem engineReset_events (s : State) : (engineReset s).events = s.events := rfl
@[simp] theorem engineReset_hostVals (s : State) : (engineReset s).hostVals = s.hostVals := rfl

@[simp] theorem placeCommand_cmd (w : Word32) (s : State) : (placeCommand w s).cmd = w := rfl
@[simp] theorem placeCommand_busy (w : Word32) (s : State) : (placeCommand w s).busy = true := rfl
@[simp] theorem placeCommand_done (w : Word32) (s : State) : (placeCommand w s).done = false := rfl
@[simp] theorem placeCommand_err (w : Word32) (s : State) : (placeCommand w s).err = false := rfl
@[simp] theorem placeCommand_errcode (w : Word32) (s : State) : (placeCommand w s).errcode = 0 := rfl
@[simp] theorem placeCommand_werr (w : Word32) (s : State) : (placeCommand w s).werr = s.werr := rfl
@[simp] theorem placeCommand_qinf (w : Word32) (s : State) : (placeCommand w s).qinf = s.qinf := rfl
@[simp] theorem placeCommand_doneie (w : Word32) (s : State) : (placeCommand w s).doneie = s.doneie := rfl
@[simp] theorem placeCommand_doneip (w : Word32) (s : State) : (placeCommand w s).doneip = s.doneip := rfl
@[simp] theorem placeCommand_ops (w : Word32) (s : State) : (placeCommand w s).ops = s.ops := rfl
@[simp] theorem placeCommand_qx (w : Word32) (s : State) : (placeCommand w s).qx = s.qx := rfl
@[simp] theorem placeCommand_qy (w : Word32) (s : State) : (placeCommand w s).qy = s.qy := rfl
@[simp] theorem placeCommand_remaining (w : Word32) (s : State) : (placeCommand w s).remaining = 1 := rfl
@[simp] theorem placeCommand_resetHeld (w : Word32) (s : State) : (placeCommand w s).resetHeld = false := rfl
@[simp] theorem placeCommand_events (w : Word32) (s : State) : (placeCommand w s).events = .engine :: s.events := rfl
@[simp] theorem placeCommand_hostVals (w : Word32) (s : State) : (placeCommand w s).hostVals = s.hostVals := rfl

end Sys2Proof.Laws
end

