-- ==== Sys2Proof/Laws/Window.lean ====
section
/-! SUPPORT. The register window: where each register stands, what a read returns, what a write does
(10_state.md R21, 20_memory.md R50 to R58), one lemma for each rule. -/

namespace Sys2Proof.Laws
open Sys2Proof.Machine

@[simp] theorem windowWord_ctrl (r : CtrlReg) : windowWord r.offset = .ctrl r := by cases r <;> rfl

theorem windowWord_wide (r : WideReg) (j : Nat) (hj : j < 8) : windowWord (r.offset + 4 * j) = .wide r j := by
  interval_cases j <;> cases r <;> rfl

/-- A 32-bit register stands only at its offset. -/
theorem offset_of_windowWord_ctrl {off : Nat} {r : CtrlReg} (h : windowWord off = .ctrl r) : off = r.offset := by
  rcases hf : ctrlRegs.find? (fun r => r.offset == off) with _ | r'
  · simp only [windowWord, hf] at h
    split at h <;> cases h
  · have h2 := List.find?_some hf
    simp only [windowWord, hf, WindowWord.ctrl.injEq] at h
    subst h
    simpa using (beq_iff_eq.mp h2).symm

/-- A word of a 256-bit register stands only in its 32 bytes. -/
theorem offset_of_windowWord_wide {off : Nat} {r : WideReg} {j : Nat} (h : windowWord off = .wide r j) :
    r.offset ≤ off ∧ off < r.offset + 32 ∧ j = (off - r.offset) / 4 := by
  rcases hf : ctrlRegs.find? (fun r => r.offset == off) with _ | r'
  · rcases hg : wideRegs.find? (fun r => r.covers off) with _ | r'
    · simp only [windowWord, hf, hg] at h; cases h
    · have h2 := List.find?_some hg
      simp only [windowWord, hf, hg, WindowWord.wide.injEq] at h
      obtain ⟨rfl, rfl⟩ := h
      simp only [WideReg.covers, Bool.and_eq_true, decide_eq_true_eq] at h2
      exact ⟨h2.1, h2.2, rfl⟩
  · simp only [windowWord, hf] at h; cases h

@[simp] theorem busRead_ctrl (s : State) (r : CtrlReg) : busRead s r.offset = s.ctrl r := by simp [busRead]

theorem busRead_wide (s : State) (r : WideReg) (j : Nat) (hj : j < 8) :
    busRead s (r.offset + 4 * j) = wordOf (s.wide r) j := by simp [busRead, windowWord_wide r j hj]

@[simp] theorem busWrite_ctrl (r : CtrlReg) (v : Word32) (s : State) : busWrite r.offset v s = writeCtrl r v s := by
  simp [busWrite]

theorem busWrite_wide (r : WideReg) (j : Nat) (hj : j < 8) (v : Word32) (s : State) :
    busWrite (r.offset + 4 * j) v s = writeWide r j v s := by simp [busWrite, windowWord_wide r j hj]

/-! The 32-bit registers at their offsets as the statements write them. -/

theorem busRead_cmd (s : State) : busRead s 0x008 = s.cmd := busRead_ctrl s .cmd
theorem busRead_status (s : State) : busRead s 0x00C = s.statusWord := busRead_ctrl s .status
theorem busRead_irqen (s : State) : busRead s 0x010 = s.irqenWord := busRead_ctrl s .irqen
theorem busRead_irqpend (s : State) : busRead s 0x014 = s.irqpendWord := busRead_ctrl s .irqpend
theorem busRead_opflags (s : State) : busRead s 0x018 = s.opflagsWord := busRead_ctrl s .opflags

theorem busWrite_cmd (v : Word32) (s : State) :
    busWrite 0x008 v s = if s.busy then dropWrite s else accept v s := busWrite_ctrl .cmd v s
theorem busWrite_status (v : Word32) (s : State) :
    busWrite 0x00C v s = if v.getLsbD 16 then { s with werr := false } else s := busWrite_ctrl .status v s
theorem busWrite_irqen (v : Word32) (s : State) :
    busWrite 0x010 v s = { s with doneie := v.getLsbD 0 } := busWrite_ctrl .irqen v s
theorem busWrite_irqpend (v : Word32) (s : State) :
    busWrite 0x014 v s = if v.getLsbD 0 then { s with doneip := false } else s := busWrite_ctrl .irqpend v s
theorem busWrite_opflags (v : Word32) (s : State) :
    busWrite 0x018 v s = if s.busy then dropWrite s
      else { s with ops := { s.ops with ainf := v.getLsbD 0, binf := v.getLsbD 1 } } := busWrite_ctrl .opflags v s

/-- A word of an operand register. -/
def isOperandWord : WindowWord → Bool
  | .ctrl _ => false
  | .wide r j => r.isOperand && decide (j < 8)
  | .reserved => false

/-- Every word from 0x100 to 0x1FF is a word of an operand register (10_state.md R21). -/
theorem windowWord_operand (off : Nat) (h1 : 0x100 ≤ off) (h2 : off < 0x200) :
    ∃ r j, r.isOperand = true ∧ j < 8 ∧ windowWord off = .wide r j := by
  have key : ∀ off < 0x200, 0x100 ≤ off → isOperandWord (windowWord off) = true := by decide +kernel
  have := key off h2 h1
  rcases hw : windowWord off with r | ⟨r, j⟩ | _ <;> rw [hw] at this
  · cases this
  · simp only [isOperandWord, Bool.and_eq_true, decide_eq_true_eq] at this
    exact ⟨r, j, this.1, this.2, rfl⟩
  · cases this

/-- Word j of a value whose word j has been replaced (20_memory.md R56). -/
theorem wordOf_withWord_self (x : Word256) (j : Nat) (v : Word32) : wordOf (withWord x j v) j = v := by
  have hs : 224 - 32 * j ≤ 224 := Nat.sub_le _ _
  generalize hsh : 224 - 32 * j = sh at hs
  ext i hi
  simp only [wordOf, withWord, hsh, BitVec.getElem_extractLsb', BitVec.getLsbD_or, BitVec.getLsbD_and,
    BitVec.getLsbD_not, BitVec.getLsbD_shiftLeft, BitVec.getLsbD_setWidth]
  have h1 : sh + i < 256 := by omega
  have h2 : ¬ sh + i < sh := by omega
  have h3 : sh + i - sh = i := by omega
  have h4 : (0xFFFFFFFF#256).getLsbD i = true := by
    interval_cases i <;> rfl
  simp [h1, h3, h4, show i < 256 by omega, BitVec.getLsbD_eq_getElem hi]

/-- The other seven words stay (20_memory.md R56). -/
theorem wordOf_withWord_other (x : Word256) (j i : Nat) (v : Word32) (hj : j < 8) (hi : i < 8) (hij : i ≠ j) :
    wordOf (withWord x j v) i = wordOf x i := by
  ext b hb
  simp only [wordOf, withWord, BitVec.getElem_extractLsb', BitVec.getLsbD_or, BitVec.getLsbD_and,
    BitVec.getLsbD_not, BitVec.getLsbD_shiftLeft, BitVec.getLsbD_setWidth]
  by_cases h : 224 - 32 * i + b < 224 - 32 * j
  · simp [h, show 224 - 32 * i + b < 256 by omega]
  · have h1 : 32 ≤ 224 - 32 * i + b - (224 - 32 * j) := by omega
    have h2 : (0xFFFFFFFF#256).getLsbD (224 - 32 * i + b - (224 - 32 * j)) = false := by
      generalize 224 - 32 * i + b - (224 - 32 * j) = n at h1 ⊢
      have e : (0xFFFFFFFF#256) = (0xFFFFFFFF#32).setWidth 256 := rfl
      rw [e, BitVec.getLsbD_setWidth, BitVec.getLsbD_of_ge _ _ h1, Bool.and_false]
    simp [h1, h2, show 224 - 32 * i + b < 256 by omega]

theorem getLsbD_wordOf (x : Word256) (j i : Nat) :
    (wordOf x j).getLsbD i = (decide (i < 32) && x.getLsbD (224 - 32 * j + i)) := by
  simp [wordOf, BitVec.getLsbD_extractLsb']

/-- The value of a 256-bit register is its eight words, most significant first (20_memory.md R53). -/
theorem words_append (x : Word256) :
    wordOf x 0 ++ wordOf x 1 ++ wordOf x 2 ++ wordOf x 3 ++ wordOf x 4 ++ wordOf x 5 ++ wordOf x 6 ++ wordOf x 7 = x := by
  apply BitVec.eq_of_getLsbD_eq
  intro i hi
  simp only [BitVec.getLsbD_append, getLsbD_wordOf]
  repeat' split
  all_goals
    rw [decide_eq_true (by omega), Bool.true_and]
    exact congrArg _ (by omega)

/-- Two 256-bit values with the same eight words are equal. -/
theorem eq_of_words {x y : Word256} (h : ∀ j < 8, wordOf x j = wordOf y j) : x = y := by
  rw [← words_append x, ← words_append y]
  rw [h 0 (by omega), h 1 (by omega), h 2 (by omega), h 3 (by omega), h 4 (by omega), h 5 (by omega), h 6 (by omega),
    h 7 (by omega)]

@[simp] theorem wide_setOperand (s : State) (r : WideReg) (hr : r.isOperand = true) (v : Word256) :
    State.wide { s with ops := setOperand s.ops r v } r = v := by cases r <;> first | rfl | cases hr

theorem wide_setOperand_other (s : State) (r r' : WideReg) (h : r' ≠ r) (v : Word256) :
    State.wide { s with ops := setOperand s.ops r v } r' = s.wide r' := by cases r <;> cases r' <;> first | rfl | exact absurd rfl h

/-- An access outside the window is refused, a bad one in it faults, any other acts at its offset
(20_memory.md R50 to R52). -/
theorem busAccess_inside (off : Nat) (size : AccessSize) (act : Nat → State) (h : off < 4096) :
    busAccess (Config.ecrBase + off) size act =
      if size = .word ∧ off % 4 = 0 then .next (act off) else .fault .busError := by
  have : windowOffset (Config.ecrBase + off) = some off := by
    rw [windowOffset, if_pos (by omega), Nat.add_sub_cancel_left]
  simp [busAccess, this]

theorem busAccess_outside (addr : Nat) (size : AccessSize) (act : Nat → State)
    (h : addr < Config.ecrBase ∨ Config.ecrBase + 4096 ≤ addr) : busAccess addr size act = .refused .outsideWindow := by
  have : windowOffset addr = none := by rw [windowOffset, if_neg (by omega)]
  simp [busAccess, this]

/-- What a bus access can do. -/
theorem busAccess_next {addr : Nat} {size : AccessSize} {act : Nat → State} {t : State}
    (h : busAccess addr size act = .next t) :
    ∃ off, windowOffset addr = some off ∧ size = .word ∧ off % 4 = 0 ∧ t = act off := by
  simp only [busAccess] at h
  split at h
  · cases h
  · next off hoff =>
    split at h
    · next hc => cases h; exact ⟨off, hoff, hc.1, hc.2, rfl⟩
    · cases h

/-- Everything a write to the window can do (20_memory.md R56 to R58; 10_state.md R24 to R29). -/
theorem busWrite_cases (off : Nat) (v : Word32) (s : State) :
    busWrite off v s = s ∨
    (s.busy = false ∧ busWrite off v s = accept v s) ∨
    (s.busy = true ∧ busWrite off v s = dropWrite s) ∨
    busWrite off v s = { s with werr := false } ∨
    busWrite off v s = { s with doneie := v.getLsbD 0 } ∨
    busWrite off v s = { s with doneip := false } ∨
    (s.busy = false ∧ ∃ o, busWrite off v s = { s with ops := o }) := by
  rcases hw : windowWord off with r | ⟨r, j⟩ | _
  · simp only [busWrite, hw]
    cases r <;> simp only [writeCtrl]
    case cmd => cases h : s.busy <;> simp
    case status => split <;> simp
    case irqpend => split <;> simp
    case opflags => cases h : s.busy <;> simp
    all_goals simp
  · simp only [busWrite, hw, writeWide]
    split
    · cases h : s.busy <;> simp
    · simp
  · simp [busWrite, hw]

/-! What `rd256` leaves with the host (30_encoding.md R79). -/

theorem joinWords_wordOf (x : Word256) : joinWords (wordOf x) = x := words_append x

theorem wordName_injective (name : String) {i j : Nat} (hi : i < 8) (hj : j < 8)
    (h : wordName name i = wordName name j) : i = j := by
  have h2 : toString i = toString j := String.append_right_inj _ |>.mp h
  revert h2
  revert hi hj
  clear h
  intro hi hj
  interval_cases i <;> interval_cases j <;> decide

/-- Once the host keeps the eight words of x under the names of `rd256`, it has x. -/
theorem hostValue256_eq {s : State} {name : String} {x : Word256}
    (h : ∀ j < 8, hostWord s (wordName name j) = some (wordOf x j)) : hostValue256 s name = some x := by
  have hall : (List.range 8).all (fun j => (hostWord s (wordName name j)).isSome) = true := by
    rw [List.all_eq_true]
    intro j hj
    rw [h j (List.mem_range.mp hj)]
    rfl
  rw [hostValue256, if_pos hall]
  conv_rhs => rw [← joinWords_wordOf x]
  simp only [joinWords, h 0 (by decide), h 1 (by decide), h 2 (by decide), h 3 (by decide), h 4 (by decide),
    h 5 (by decide), h 6 (by decide), h 7 (by decide), Option.getD_some]

end Sys2Proof.Laws
end

