-- ==== Sys2Proof/Laws/Step.lean ====
section
/-! SUPPORT. Everything a step can do, said once: a completion with the outcome of the latched command, an engine step
that only counts down, a host access, a reset edge, or nothing. -/

namespace Sys2Proof.Laws
open Sys2Proof.Machine

/-- The outcome of a command: a function of the operand registers and the command alone
(40_command_execution.md R117, R118). -/
def commandResult (i : Instr) (o : OperandFile) : CmdResult :=
  match i with
  | .padd => paddResult o
  | .pdbl => pdblResult o
  | .pmul => pmulResult o
  | .sqrt => sqrtResult o
  | .decomp odd => decompResult odd o
  | .recover recid => recoverResult recid o
  | .recoverv v => recovervResult v o

/-- Every command completes (40_command_execution.md R115, R117). -/
theorem exec_eq (i : Instr) (s : State) : exec i s = .next (complete (commandResult i s.ops) s) := by
  cases i <;> rfl

/-- The outcome of a command word, legal or not (40_command_execution.md R117). -/
def wordResult (w : Word32) (o : OperandFile) : CmdResult :=
  match decode w with
  | .ok i => commandResult i o
  | .error _ => .error .illegalCommand

theorem runCommand_eq (s : State) : runCommand s = .next (complete (wordResult s.cmd s.ops) s) := by
  simp only [runCommand, wordResult]
  cases decode s.cmd <;> simp [exec_eq]

/-- What an engine step does (40_command_execution.md R114, R115; 60_exceptions.md R224). -/
theorem engineStep_cases (s : State) :
    (s.busy = false ∧ engineStep s = .next s) ∨
    (s.busy = true ∧ 1 < s.remaining ∧ engineStep s = .next { s with remaining := s.remaining - 1 }) ∨
    (s.busy = true ∧ s.remaining ≤ 1 ∧ engineStep s = .next (complete (wordResult s.cmd s.ops) s)) := by
  cases hb : s.busy with
  | false => exact .inl ⟨rfl, by simp [engineStep, hb]⟩
  | true =>
    by_cases hr : s.remaining ≤ 1
    · exact .inr (.inr ⟨rfl, hr, by simp [engineStep, hb, hr, runCommand_eq]⟩)
    · exact .inr (.inl ⟨rfl, by omega, by simp [engineStep, hb, hr]⟩)

/-- When the next event is an engine step, the step is that engine step. -/
theorem step_eq_engineStep {s : State} {rest : List Event} (hh : s.resetHeld = false) (hn : s.engineNext rest) :
    step s = engineStep { s with events := rest } := by
  rcases hn with ⟨he, rfl⟩ | he
  · simp [step, nextEvent, hh, liveEvent, he]; congr 1; rw [← he, ← hh]
  · simp [step, nextEvent, hh, liveEvent, he]

/-- When the next event is a host access, the step is that access. -/
theorem step_eq_hostAccess {s : State} {op : HostOp} {es : List Event} (hh : s.resetHeld = false)
    (he : s.events = .host op :: es) : step s = hostAccess op { s with events := es } := by
  simp [step, nextEvent, hh, liveEvent, he]

/-- What a host access does when it is answered: a write at a window offset, or something no engine register sees. -/
theorem hostAccess_next {op : HostOp} {s t : State} (h : hostAccess op s = .next t) :
    (∃ addr off v, op = .wr addr .word v ∧ windowOffset addr = some off ∧ off % 4 = 0 ∧ t = busWrite off v s) ∨
    (∃ es vals, t = { s with events := es, hostVals := vals }) := by
  cases op with
  | wr addr size v =>
    obtain ⟨off, ho, rfl, hm, rfl⟩ := busAccess_next h
    exact .inl ⟨addr, off, v, rfl, ho, hm, rfl⟩
  | rd addr size name =>
    obtain ⟨off, -, -, -, rfl⟩ := busAccess_next h
    exact .inr ⟨_, _, rfl⟩
  | poll addr mask val =>
    obtain ⟨off, -, -, -, rfl⟩ := busAccess_next h
    simp only [pollRead]
    split
    · exact .inr ⟨s.events, s.hostVals, rfl⟩
    · exact .inr ⟨_, s.hostVals, rfl⟩

/-- Everything a step to a next state can do. `u` is the state with the event taken off the list. -/
theorem step_cases {s t : State} (h : step s = .next t) :
    (s.resetHeld = true ∧ ∃ es, t = { s with resetHeld := false, events := es }) ∨
    (∃ es, s.events = .resetAssert :: es ∧ t = engineReset { s with resetHeld := true, events := es }) ∨
    (s.resetHeld = false ∧ ∃ es, t = { s with events := es }) ∨
    (s.resetHeld = false ∧ s.busy = true ∧ 1 < s.remaining ∧
      ∃ es, t = { s with events := es, remaining := s.remaining - 1 }) ∨
    (s.resetHeld = false ∧ s.busy = true ∧ s.remaining ≤ 1 ∧
      ∃ es, t = complete (wordResult s.cmd s.ops) { s with events := es }) ∨
    (s.resetHeld = false ∧ ∃ es addr off v, s.events = .host (.wr addr .word v) :: es ∧
      windowOffset addr = some off ∧ off % 4 = 0 ∧ t = busWrite off v { s with events := es }) ∨
    (s.resetHeld = false ∧ ∃ es vals, t = { s with events := es, hostVals := vals }) := by
  have engine : ∀ u es, u = { s with events := es } → s.resetHeld = false → engineStep u = .next t →
      (s.resetHeld = false ∧ ∃ es, t = { s with events := es }) ∨
      (s.resetHeld = false ∧ s.busy = true ∧ 1 < s.remaining ∧
        ∃ es, t = { s with events := es, remaining := s.remaining - 1 }) ∨
      (s.resetHeld = false ∧ s.busy = true ∧ s.remaining ≤ 1 ∧
        ∃ es, t = complete (wordResult s.cmd s.ops) { s with events := es }) := by
    rintro u es rfl hh he
    rcases engineStep_cases { s with events := es } with ⟨_, e⟩ | ⟨hb, hr, e⟩ | ⟨hb, hr, e⟩
    · rw [e] at he; cases he; exact .inl ⟨hh, es, rfl⟩
    · rw [e] at he; cases he; exact .inr (.inl ⟨hh, hb, hr, es, rfl⟩)
    · rw [e] at he; cases he; exact .inr (.inr ⟨hh, hb, hr, es, rfl⟩)
  simp only [step, nextEvent] at h
  by_cases hh : s.resetHeld = true
  · simp only [hh, if_true, heldEvent] at h
    split at h
    · next es _ => cases h; exact .inl ⟨hh, es, rfl⟩
    · next es he => cases h; refine .inr (.inl ⟨es, he, ?_⟩); simp [← hh]
    · cases h
  · have hh : s.resetHeld = false := Bool.eq_false_iff.mpr hh
    simp only [hh, Bool.false_eq_true, if_false, liveEvent] at h
    split at h
    · rcases engine s s.events rfl hh h with h | h | h
      · exact .inr (.inr (.inl h))
      · exact .inr (.inr (.inr (.inl h)))
      · exact .inr (.inr (.inr (.inr (.inl h))))
    · next es _ =>
      rcases engine _ es rfl hh (by rw [← hh] at h; exact h) with h | h | h
      · exact .inr (.inr (.inl h))
      · exact .inr (.inr (.inr (.inl h)))
      · exact .inr (.inr (.inr (.inr (.inl h))))
    · next op es he =>
      rcases hostAccess_next h with ⟨addr, off, v, rfl, ho, hm, rfl⟩ | ⟨es', vals, rfl⟩
      · exact .inr (.inr (.inr (.inr (.inr (.inl ⟨hh, es, addr, off, v, he, ho, hm, by rw [← hh]⟩)))))
      · exact .inr (.inr (.inr (.inr (.inr (.inr ⟨hh, es', vals, by simp [← hh]⟩)))))
    · next es he => cases h; exact .inr (.inl ⟨es, he, rfl⟩)
    · next es _ => cases h; exact .inr (.inr (.inl ⟨hh, es, by simp [← hh]⟩))

/-- A run of k + 1 steps whose first step answers t is a run of k steps from t. -/
theorem run_step {k : Nat} {s t : State} (h : step s = .next t) :
    Host.Core.run Sys2Proof.core (k + 1) s = Host.Core.run Sys2Proof.core k t := by
  have h' : core.step s = .next t := h
  simp only [Host.Core.run, h']

end Sys2Proof.Laws
end

