-- ==== Sys2Proof/Laws/Commands.lean ====
section
/-! SUPPORT. What the shared operations of the commands do: the point check, the square root, decompression, and the
completion of a command as `succeededAs` and `failedAs` say it. -/

namespace Sys2Proof.Laws
open Sys2Proof.Machine

/-- Both coordinates fit a 256-bit register. -/
def fits : Point → Prop
  | .inf => True
  | .aff x y => x < 2 ^ 256 ∧ y < 2 ^ 256

theorem fits_of_valid {P : Point} (h : P.valid = true) : fits P := by
  cases P with
  | inf => trivial
  | aff x y => obtain ⟨hx, hy, -⟩ := (valid_aff x y).mp h; exact ⟨hx.trans curveP_lt, hy.trans curveP_lt⟩

theorem complete_ok_result {q : Point} (h : fits q) (s : State) : (complete (.ok q) s).result = q := by
  cases q with
  | inf => rfl
  | aff x y => simp only [fits] at h; simpa [State.result] using h

/-- 40_command_execution.md R115, R116: a success. -/
theorem succeededAs_complete {q : Point} (h : fits q) (s : State) : succeededAs s (complete (.ok q) s) q :=
  ⟨by simp, by simp, complete_ok_result h s, by rintro rfl; simp⟩

/-- 40_command_execution.md R115, R116: a failure. -/
theorem failedAs_complete (c : ErrorCode) (s : State) : failedAs s (complete (.error c) s) c.code :=
  ⟨rfl, rfl, rfl, rfl, rfl⟩

theorem errorCode_ne_zero (c : ErrorCode) : c.code ≠ 0 := by cases c <;> decide

/-! ## The point check (40_command_execution.md R111) -/

theorem checkPoint_outOfRange {P : Point} (h : outOfRange P) : checkPoint P = .error .operandRange := by
  cases P with
  | inf => exact h.elim
  | aff x y => exact if_pos h

theorem onCurve_eq (x y : Nat) : onCurve x y = decide (y * y % curveP = (x * x * x + 7) % curveP) := by
  simp [onCurve, curveA, curveB, beq_eq_decide]

theorem checkPoint_offCurve {P : Point} (h : ¬outOfRange P) (h' : offCurve P) :
    checkPoint P = .error .pointNotOnCurve := by
  cases P with
  | inf => exact h'.elim
  | aff x y => simp only [outOfRange] at h; simp only [offCurve] at h'; simp [checkPoint, h, onCurve_eq, h']

theorem checkPoint_ok {P : Point} (h : ¬outOfRange P) (h' : ¬offCurve P) : checkPoint P = .ok () := by
  cases P with
  | inf => rfl
  | aff x y =>
    simp only [outOfRange] at h; simp only [offCurve, not_not] at h'; simp [checkPoint, h, onCurve_eq, h']

theorem valid_iff (P : Point) : P.valid = true ↔ ¬outOfRange P ∧ ¬offCurve P := by
  cases P with
  | inf => simp [Point.valid, outOfRange, offCurve]
  | aff x y => simp [Point.valid, outOfRange, offCurve, onCurve_eq]

theorem checkPoint_of_valid {P : Point} (h : P.valid = true) : checkPoint P = .ok () :=
  checkPoint_ok ((valid_iff P).mp h).1 ((valid_iff P).mp h).2

theorem checkPoint_cases (P : Point) :
    (P.valid = true ∧ checkPoint P = .ok ()) ∨
    (P.valid = false ∧ (checkPoint P = .error .operandRange ∨ checkPoint P = .error .pointNotOnCurve)) := by
  by_cases h : outOfRange P
  · refine .inr ⟨Bool.eq_false_iff.mpr fun hv => ((valid_iff P).mp hv).1 h, .inl (checkPoint_outOfRange h)⟩
  by_cases h' : offCurve P
  · refine .inr ⟨Bool.eq_false_iff.mpr fun hv => ((valid_iff P).mp hv).2 h', .inr (checkPoint_offCurve h h')⟩
  · exact .inl ⟨(valid_iff P).mpr ⟨h, h'⟩, checkPoint_ok h h'⟩

/-! ## Valid results (40_command_execution.md R110) -/

theorem basePoint_valid : basePoint.valid = true := by decide

theorem ecAdd_valid {P Q : Point} (hP : P.valid = true) (hQ : Q.valid = true) : (ecAdd P Q).valid = true := by
  have := curveP_fact
  obtain ⟨p, hp⟩ := (valid_iff_represents P).mp hP
  obtain ⟨q, hq⟩ := (valid_iff_represents Q).mp hQ
  exact (represents_add hp hq).valid

theorem ecDouble_valid {P : Point} (hP : P.valid = true) : (ecDouble P).valid = true := by
  have := curveP_fact
  obtain ⟨p, hp⟩ := (valid_iff_represents P).mp hP
  exact (represents_double hp).valid

theorem ecNeg_valid {P : Point} (hP : P.valid = true) : (ecNeg P).valid = true := by
  have := curveP_fact
  obtain ⟨p, hp⟩ := (valid_iff_represents P).mp hP
  exact (represents_neg hp).valid

theorem ecMul_valid {P : Point} (hP : P.valid = true) {k : Nat} (hk : k < 2 ^ 256) : (ecMul P k).valid = true := by
  have := curveP_fact
  obtain ⟨p, hp⟩ := (valid_iff_represents P).mp hP
  exact (represents_mul hp k hk).valid

/-! ## Square roots (42_point_decoder.md R150 to R152) -/

theorem sqrtCandidate_eq (a : Nat) : sqrtCandidate a = a ^ ((curveP + 1) / 4) % curveP :=
  powMod_eq _ _ _ (by decide)

theorem sqrtCandidate_lt (a : Nat) : sqrtCandidate a < curveP := by
  rw [sqrtCandidate_eq]; exact Nat.mod_lt _ curveP_pos

theorem isRoot_iff (c a : Nat) : isRoot c a = true ↔ c * c % curveP = a := by simp [isRoot]

/-- If a has a square root at all, the candidate is one: p ≡ 3 (mod 4). -/
theorem sqrtCandidate_sq {a : Nat} (h : ∃ c, c * c % curveP = a) :
    sqrtCandidate a * sqrtCandidate a % curveP = a := by
  obtain ⟨c, hc⟩ := h
  have := curveP_fact
  have ha : a < curveP := hc ▸ Nat.mod_lt _ curveP_pos
  refine eq_of_cast_eq (Nat.mod_lt _ curveP_pos) ha ?_
  have hca : (a : ZMod curveP) = (c : ZMod curveP) * c := by rw [← hc]; simp
  rw [sqrtCandidate_eq]
  simp only [ZMod.natCast_mod, Nat.cast_mul, Nat.cast_pow]
  rw [hca, ← pow_two (c : ZMod curveP), ← pow_mul, ← pow_add,
    show 2 * ((curveP + 1) / 4) + 2 * ((curveP + 1) / 4) = curveP + 1 by decide, pow_succ, ZMod.pow_card, pow_two]

/-- -7 has no cube root modulo p, so no point of the curve has y = 0. -/
theorem cube_ne (x : ZMod curveP) : x * x * x + 7 ≠ 0 := by
  have := curveP_fact
  intro h
  have hx : x ≠ 0 := by
    rintro rfl
    have : ((7 : Nat) : ZMod curveP) ≠ 0 := by
      rw [Ne, ZMod.natCast_eq_zero_iff]; exact Nat.not_dvd_of_pos_of_lt (by decide) (by decide)
    exact this (by simpa using h)
  have h3 : x ^ 3 = ((curveP - 7 : Nat) : ZMod curveP) := by
    rw [Nat.cast_sub (by decide)]; simp; linear_combination h
  have h1 : x ^ (curveP - 1) = 1 := ZMod.pow_card_sub_one_eq_one hx
  rw [show curveP - 1 = 3 * ((curveP - 1) / 3) by decide, pow_mul, h3, ← Nat.cast_pow] at h1
  have h2 := (ZMod.natCast_eq_natCast_iff' _ 1 curveP).mp (h1.trans Nat.cast_one.symm)
  rw [← powMod_eq _ _ _ (by decide)] at h2
  exact absurd h2 (by decide +kernel)

theorem y_ne_zero {x y : Nat} (h : onCurve x y = true) : (y : ZMod curveP) ≠ 0 := by
  have := curveP_fact
  intro h0
  have := (onCurve_iff x y).mp h
  rw [h0] at this
  exact cube_ne x (by rw [← this]; ring)

theorem cube_mod (x : Nat) : (x * x * x + curveB) % curveP = (x * x * x + 7) % curveP := rfl

/-- 42_point_decoder.md R152: x has a point, and the result is the one with the wanted parity. -/
theorem decompress_ok {x : Nat} (h : hasPoint x) (wantEven : Bool) :
    ∃ y, decompress x wantEven = .ok (.aff x y) ∧ y < curveP ∧ (y % 2 == 0) = wantEven ∧ onCurve x y = true := by
  have := curveP_fact
  have hc := sqrtCandidate_sq h
  obtain ⟨c, hcd⟩ : ∃ c, c = sqrtCandidate ((x * x * x + 7) % curveP) := ⟨_, rfl⟩
  have hlt : c < curveP := hcd ▸ sqrtCandidate_lt _
  rw [← hcd] at hc
  have hon : onCurve x c = true := by rw [onCurve_eq]; simpa using hc
  have hd : decompress x wantEven = .ok (.aff x (if (c % 2 == 0) == wantEven then c else curveP - c)) := by
    simp only [decompress, cube_mod, ← hcd, (isRoot_iff _ _).mpr hc, if_true]
  have h0 : c ≠ 0 := by rintro rfl; exact y_ne_zero hon (by simp)
  have hodd := curveP_odd
  by_cases he : ((c % 2 == 0) == wantEven) = true
  · exact ⟨c, by rw [hd, if_pos he], hlt, by simpa using he, hon⟩
  · refine ⟨curveP - c, by rw [hd, if_neg he], by omega, ?_, ?_⟩
    · rw [Bool.not_eq_true] at he
      cases wantEven <;> simp at he ⊢ <;> omega
    · have := (onCurve_iff x c).mp hon
      rw [onCurve_iff, Nat.cast_sub hlt.le]
      simp
      linear_combination this

/-- 42_point_decoder.md R152: x has no point. -/
theorem decompress_error {x : Nat} (h : ¬hasPoint x) (wantEven : Bool) :
    decompress x wantEven = .error .pointNotOnCurve := by
  have : isRoot (sqrtCandidate ((x * x * x + 7) % curveP)) ((x * x * x + 7) % curveP) = false := by
    rw [Bool.eq_false_iff, Ne, isRoot_iff]
    exact fun hc => h ⟨_, hc⟩
  simp only [decompress, cube_mod, this, Bool.false_eq_true, if_false]

/-- One x has at most one point of each parity. -/
theorem parity_unique {x y y' : Nat} (hy : y < curveP) (hy' : y' < curveP) (h : onCurve x y = true)
    (h' : onCurve x y' = true) (he : y % 2 = y' % 2) : y = y' := by
  have := curveP_fact
  have e1 := (onCurve_iff x y).mp h
  have e2 := (onCurve_iff x y').mp h'
  have : ((y : ZMod curveP) - y') * (y + y') = 0 := by linear_combination e1 - e2
  rcases mul_eq_zero.mp this with h2 | h2
  · exact eq_of_cast_eq hy hy' (sub_eq_zero.mp h2)
  · have h3 : (((y + y' : Nat)) : ZMod curveP) = 0 := by push_cast; exact h2
    rw [ZMod.natCast_eq_zero_iff] at h3
    obtain ⟨k, hk⟩ := h3
    have hodd := curveP_odd
    have hk2 : k < 2 := by
      by_contra hn
      have : curveP * 2 ≤ curveP * k := Nat.mul_le_mul_left _ (by omega)
      omega
    interval_cases k
    · omega
    · omega

/-- A point that decompression returns is valid and not INF. -/
theorem decompress_valid {x : Nat} {wantEven : Bool} {q : Point} (hx : x < curveP)
    (h : decompress x wantEven = .ok q) : q.valid = true ∧ q ≠ .inf := by
  by_cases hn : hasPoint x
  · obtain ⟨y, hd, hy, -, hon⟩ := decompress_ok hn wantEven
    rw [hd] at h; cases h
    exact ⟨(valid_aff _ _).mpr ⟨hx, hy, hon⟩, fun h => Point.noConfusion h⟩
  · rw [decompress_error hn] at h; cases h

/-! ## Recovery (43_signature_recovery.md R174) -/

/-- An inverse modulo n is the number `invN` gives (40_command_execution.md R103). -/
theorem eq_invN {a u : Nat} (ha : a % curveN ≠ 0) (hu : u < curveN) (h : a * u % curveN = 1) : u = invN a := by
  obtain ⟨-, h2, h3⟩ := invMod_spec curveN a curveN_prime (by decide) ha
  have hcop : Nat.gcd curveN a = 1 := by
    rw [← Nat.coprime_iff_gcd_eq_one, Nat.Prime.coprime_iff_not_dvd curveN_prime, Nat.dvd_iff_mod_eq_zero]; exact ha
  have : u ≡ invN a [MOD curveN] :=
    Nat.ModEq.cancel_left_of_coprime hcop (show a * u % curveN = a * invMod curveN a % curveN by rw [h, h3])
  exact Nat.ModEq.eq_of_lt_of_lt this hu h2

theorem recoveredKey_valid {R : Point} (hR : R.valid = true) {r s e : Nat} (hs : s < 2 ^ 256)
    (hr : r % curveN ≠ 0) : (recoveredKey R r s e).valid = true := by
  have hn : curveN < 2 ^ 256 := by decide
  refine ecMul_valid (ecAdd_valid (ecMul_valid hR hs) (ecNeg_valid (ecMul_valid basePoint_valid
    ((Nat.mod_lt _ curveN_pos).trans hn)))) ?_
  exact (invMod_spec curveN r curveN_prime hn hr).2.1.trans hn

end Sys2Proof.Laws
end

