-- ==== Sys2Proof/Laws/GroupOrder.lean ====
section
/-! SUPPORT. The curve's group has n elements (00_scope.md R12: n is "the order of the base point G"; the cofactor is
1, 41_point_math.md R133). That n·G is 0 is evaluated without inversions, in coordinates (X, Y, Z) for
(X/Z², Y/Z³). -/

namespace Sys2Proof.Laws
open Sys2Proof.Machine

/-- A point as (X/Z², Y/Z³). -/
structure Jac where
  X : Nat
  Y : Nat
  Z : Nat

/-- The double, unless Y is 0. -/
def Jac.double (J : Jac) : Option Jac :=
  let s := fmul (4 * J.X) (fmul J.Y J.Y)
  let m := fmul 3 (J.X * J.X)
  let x := fsub (m * m) (2 * s)
  let yy := fmul J.Y J.Y
  if J.Y = 0 then none else some ⟨x, fsub (m * fsub s x) (8 * (yy * yy)), fmul (2 * J.Y) J.Z⟩

/-- The sum with G, unless the x-coordinates agree. -/
def Jac.addG (J : Jac) : Option Jac :=
  let zz := fmul J.Z J.Z
  let h := fsub (curveGx * zz) J.X
  let r := fsub (curveGy * fmul zz J.Z) J.Y
  let hh := fmul h h
  let hhh := fmul h hh
  let v := fmul J.X hh
  let x := fsub (r * r) (hhh + 2 * v)
  if h = 0 then none else some ⟨x, fsub (r * fsub v x) (J.Y * hhh), fmul J.Z h⟩

/-- The loop of 41_point_math.md R132 for multiples of G. -/
def jacLoop (k : Nat) : Nat → Jac → Option Jac
  | 0, J => some J
  | i + 1, J => (J.double.bind fun D => if k.testBit i then D.addG else some D).bind (jacLoop k i)

/-- J is -G, by coordinates. -/
def Jac.isNegG (J : Jac) : Bool :=
  J.X == fmul curveGx (J.Z * J.Z) && J.Y == fmul (curveP - curveGy) (fmul J.Z (J.Z * J.Z))

theorem jacLoop_isNegG : (jacLoop (curveN - 1) 255 ⟨curveGx, curveGy, 1⟩).any Jac.isNegG = true := by decide +kernel

theorem exists_of_any {o : Option Jac} {f : Jac → Bool} (h : o.any f = true) : ∃ J, o = some J ∧ f J = true := by
  cases o with
  | none => cases h
  | some J => exact ⟨J, rfl, h⟩

theorem gx_lt : curveGx < curveP := by decide

section
variable [Fact curveP.Prime]

/-- J stands for the group element Q. -/
def JRep (J : Jac) (Q : secp.Point) : Prop :=
  J.Y < curveP ∧ (J.Z : ZMod curveP) ≠ 0 ∧ ∃ a b hab, Q = .some a b hab ∧
    (J.X : ZMod curveP) = a * (J.Z * J.Z) ∧ (J.Y : ZMod curveP) = b * (J.Z * J.Z * J.Z)

theorem jrep_double {J J' : Jac} {Q : secp.Point} (h : JRep J Q) (hd : J.double = some J') : JRep J' (Q + Q) := by
  obtain ⟨hy, hz, a, b, hab, rfl, hX, hY⟩ := h
  simp only [Jac.double] at hd
  split at hd
  · cases hd
  next h0 =>
  cases hd
  have hY0 : (J.Y : ZMod curveP) ≠ 0 := fun hc => h0 ((cast_eq_zero_iff_of_lt hy).mp hc)
  have hb : b ≠ 0 := by rintro rfl; exact hY0 (by rw [hY]; ring)
  have hne : b ≠ secp.negY a b := by
    rw [secp_negY]; intro hc
    rcases mul_eq_zero.mp (show (2 : ZMod curveP) * b = 0 by linear_combination hc) with h2 | h2
    · exact secp_two_ne_zero h2
    · exact hb h2
  rw [WeierstrassCurve.Affine.Point.add_self_of_Y_ne hne]
  have hl : secp.slope a a b b * (2 * b) = 3 * (a * a) := by
    rw [WeierstrassCurve.Affine.slope_of_Y_ne rfl hne, secp_negY]
    simp only [secp]
    have : b - -b ≠ 0 := by
      intro hc; exact mul_ne_zero secp_two_ne_zero hb (by linear_combination hc)
    rw [div_mul_eq_mul_div, div_eq_iff this]
    ring
  refine ⟨fsub_lt _ _, ?_, _, _, _, rfl, ?_, ?_⟩
  · push_cast [fmul_cast]; exact mul_ne_zero (mul_ne_zero secp_two_ne_zero hY0) hz
  · push_cast [fmul_cast, fsub_cast]
    rw [secp_addX, hX, hY]
    generalize secp.slope a a b b = l at hl
    linear_combination (-1) * (3 * (a * a) + l * (2 * b)) * (J.Z : ZMod curveP) ^ 8 * hl
  · push_cast [fmul_cast, fsub_cast]
    rw [secp_addY, hX, hY]
    generalize secp.slope a a b b = l at hl
    have e : 3 * (a * (J.Z * J.Z) * (a * (J.Z * J.Z))) = l * (2 * (b * (J.Z * J.Z * J.Z)) * J.Z) := by
      linear_combination (-1) * (J.Z : ZMod curveP) ^ 4 * hl
    rw [e]
    ring

theorem G_equation : secp.Nonsingular (curveGx : ZMod curveP) (curveGy : ZMod curveP) :=
  (secp_nonsingular _ _).mpr ((onCurve_iff curveGx curveGy).mp (by decide))

/-- The base point as a group element. -/
def G : secp.Point := .some _ _ G_equation

theorem jrep_addG {J J' : Jac} {Q : secp.Point} (h : JRep J Q) (hd : J.addG = some J') : JRep J' (Q + G) := by
  obtain ⟨hy, hz, a, b, hab, rfl, hX, hY⟩ := h
  simp only [Jac.addG] at hd
  split at hd
  · cases hd
  next h0 =>
  cases hd
  have hH : (curveGx : ZMod curveP) * (J.Z * J.Z) - J.X ≠ 0 := by
    intro hc
    refine h0 ((cast_eq_zero_iff_of_lt (fsub_lt _ _)).mp ?_)
    push_cast [fmul_cast, fsub_cast]; exact hc
  have hne : a ≠ curveGx := by
    rintro rfl; exact hH (by rw [hX]; ring)
  rw [G, WeierstrassCurve.Affine.Point.add_of_X_ne hne]
  have hl : secp.slope a curveGx b curveGy * (curveGx - a) = curveGy - b := by
    rw [WeierstrassCurve.Affine.slope_of_X_ne hne]
    have : a - curveGx ≠ 0 := sub_ne_zero.mpr hne
    field_simp
    ring
  refine ⟨fsub_lt _ _, ?_, _, _, _, rfl, ?_, ?_⟩
  · push_cast [fmul_cast, fsub_cast]; exact mul_ne_zero hz hH
  · push_cast [fmul_cast, fsub_cast]
    rw [secp_addX, hX, hY]
    generalize secp.slope a _ b _ = l at hl
    have e : (curveGy : ZMod curveP) = b + l * (curveGx - a) := by linear_combination (-1) * hl
    rw [e]
    ring
  · push_cast [fmul_cast, fsub_cast]
    rw [secp_addY, hX, hY]
    generalize secp.slope a _ b _ = l at hl
    have e : (curveGy : ZMod curveP) = b + l * (curveGx - a) := by linear_combination (-1) * hl
    rw [e]
    ring

theorem jrep_loop (k : Nat) : ∀ (i : Nat) (J J' : Jac) (S : secp.Point), JRep J S → jacLoop k i J = some J' →
    JRep J' (2 ^ i • S + (k % 2 ^ i) • G) := by
  intro i
  induction i with
  | zero => intro J J' S hJ h; cases h; simpa [Nat.mod_one] using hJ
  | succ i ih =>
    intro J J' S hJ h
    simp only [jacLoop, Option.bind_eq_some_iff] at h
    obtain ⟨E, ⟨D, hD, hE⟩, h⟩ := h
    have hd := jrep_double hJ hD
    have hk : k % 2 ^ (i + 1) = (k.testBit i).toNat * 2 ^ i + k % 2 ^ i := by
      rw [Nat.mod_pow_succ, Nat.testBit_eq_decide_div_mod_eq]
      have h2 : k / 2 ^ i % 2 < 2 := Nat.mod_lt _ (by omega)
      have : (decide (k / 2 ^ i % 2 = 1)).toNat = k / 2 ^ i % 2 := by
        rcases (show k / 2 ^ i % 2 = 0 ∨ k / 2 ^ i % 2 = 1 by omega) with h | h <;> simp [h]
      rw [this]; ring
    by_cases hb : k.testBit i = true
    · rw [if_pos hb] at hE
      convert ih _ _ _ (jrep_addG hd hE) h using 1
      rw [hk, hb, Bool.toNat_true, one_mul, add_nsmul, nsmul_add, pow_succ, mul_nsmul', two_nsmul]
      abel
    · rw [if_neg hb] at hE
      cases hE
      convert ih _ _ _ hd h using 1
      rw [hk, Bool.eq_false_iff.mpr hb, Bool.toNat_false, zero_mul, zero_add, pow_succ, mul_nsmul', two_nsmul]

theorem represents_G : Represents basePoint G := ⟨gx_lt, by decide, rfl, rfl⟩

/-- n·G = 0. -/
theorem curveN_smul_G : curveN • G = 0 := by
  obtain ⟨J, hJ, hc⟩ := exists_of_any jacLoop_isNegG
  simp only [Jac.isNegG, Bool.and_eq_true, beq_iff_eq] at hc
  obtain ⟨hX, hY⟩ := hc
  have h0 : JRep ⟨curveGx, curveGy, 1⟩ G :=
    ⟨by decide, by simp, _, _, _, rfl, by simp, by simp⟩
  obtain ⟨-, hz, a, b, hab, hQ, hXa, hYb⟩ := jrep_loop _ _ _ _ _ h0 hJ
  rw [← add_nsmul, show 2 ^ 255 + (curveN - 1) % 2 ^ 255 = curveN - 1 by decide] at hQ
  have ha : a = curveGx := by
    rw [hX, fmul_cast] at hXa; push_cast at hXa
    exact (mul_right_cancel₀ (mul_ne_zero hz hz) hXa).symm
  have hb : b = -curveGy := by
    rw [hY, fmul_cast, fmul_cast, Nat.cast_sub (by decide)] at hYb; push_cast at hYb
    refine (mul_right_cancel₀ (mul_ne_zero (mul_ne_zero hz hz) hz) ?_).symm
    rw [← hYb, CharP.cast_eq_zero (ZMod curveP) curveP]; ring
  have hneg : (curveN - 1) • G = -G := by
    rw [hQ, G, WeierstrassCurve.Affine.Point.neg_some]
    simp only [secp_negY, ha, hb]
  rw [show curveN = curveN - 1 + 1 by decide, add_nsmul, one_nsmul, hneg, neg_add_cancel]

theorem G_ne_zero : G ≠ 0 := fun h => by cases h

/-- The base point has order n (00_scope.md R12). -/
theorem addOrderOf_G : addOrderOf G = curveN := by
  have : Fact curveN.Prime := ⟨curveN_prime⟩
  exact addOrderOf_eq_prime curveN_smul_G G_ne_zero

/-- No point of the curve has order 2. -/
theorem eq_zero_of_add_self {Q : secp.Point} (h : Q + Q = 0) : Q = 0 := by
  cases Q with
  | zero => rfl
  | some a b hab =>
    exfalso
    have e := (secp_nonsingular _ _).mp hab
    have hb : b ≠ 0 := by rintro rfl; exact cube_ne a (by rw [← e]; ring)
    have hne : b ≠ secp.negY a b := by
      rw [secp_negY]; intro hc
      rcases mul_eq_zero.mp (show (2 : ZMod curveP) * b = 0 by linear_combination hc) with h2 | h2
      · exact secp_two_ne_zero h2
      · exact hb h2
    rw [WeierstrassCurve.Affine.Point.add_self_of_Y_ne hne] at h
    cases h

/-- A group element is known by its x-coordinate and the parity of its y-coordinate. -/
def compressed : secp.Point → Option (ZMod curveP × Bool)
  | .zero => none
  | .some a b _ => some (a, b.val % 2 == 0)

theorem compressed_injective : Function.Injective compressed := by
  intro Q Q' h
  cases Q with
  | zero =>
    cases Q' with
    | zero => rfl
    | some a' b' hab' => cases h
  | some a b hab =>
    cases Q' with
    | zero => cases h
    | some a' b' hab' =>
      simp only [compressed, Option.some.injEq, Prod.mk.injEq] at h
      obtain ⟨rfl, hp⟩ := h
      have hv : ∀ b : ZMod curveP, secp.Nonsingular a b → onCurve a.val b.val = true := by
        intro b hb
        rw [onCurve_iff]; simpa using (secp_nonsingular _ _).mp hb
      have : b.val = b'.val := by
        refine parity_unique (ZMod.val_lt b) (ZMod.val_lt b') (hv b hab) (hv b' hab') ?_
        have := congrArg (· = true) hp
        simp only [beq_iff_eq, eq_iff_iff] at this
        omega
      have hbb : b = b' := ZMod.val_injective _ this
      subst hbb; rfl

/-- The group has n elements. -/
theorem card_secp : Nat.card secp.Point = curveN := by
  have hfin : Finite secp.Point := Finite.of_injective _ compressed_injective
  have hle : Nat.card secp.Point ≤ 2 * curveP + 1 := by
    refine (Nat.card_le_card_of_injective _ compressed_injective).trans ?_
    rw [Finite.card_option, Nat.card_prod, Nat.card_zmod]
    simp [Nat.card_eq_fintype_card, mul_comm]
  have hdvd : curveN ∣ Nat.card secp.Point := addOrderOf_G ▸ addOrderOf_dvd_natCard G
  have hpos : 0 < Nat.card secp.Point := Nat.card_pos
  obtain ⟨k, hk⟩ := hdvd
  have hk3 : k < 3 := by
    by_contra hn
    have : curveN * 3 ≤ curveN * k := Nat.mul_le_mul_left _ (by omega)
    have : 2 * curveP + 1 < curveN * 3 := by decide
    omega
  have hk0 : k ≠ 0 := by rintro rfl; omega
  have hk2 : k ≠ 2 := by
    rintro rfl
    have : Fact (Nat.Prime 2) := ⟨Nat.prime_two⟩
    obtain ⟨Q, hQ⟩ := exists_prime_addOrderOf_dvd_card' (G := secp.Point) 2 ⟨curveN, by rw [hk]; ring⟩
    have h2 : Q + Q = 0 := by rw [← two_nsmul, ← hQ]; exact addOrderOf_nsmul_eq_zero Q
    have := eq_zero_of_add_self h2
    rw [this, addOrderOf_zero] at hQ
    omega
  rw [hk, show k = 1 by omega, mul_one]

/-- n times anything is 0. -/
theorem curveN_smul (Q : secp.Point) : curveN • Q = 0 := by
  rw [← card_secp]; exact card_nsmul_eq_zero'

/-- Scalars count modulo n (41_point_math.md R133). -/
theorem smul_mod (k : Nat) (Q : secp.Point) : (k % curveN) • Q = k • Q := by
  conv_rhs => rw [← Nat.mod_add_div k curveN, add_nsmul, mul_nsmul', curveN_smul]
  simp

/-- For Q other than 0, k·Q is 0 exactly when n divides k. -/
theorem smul_eq_zero_iff {Q : secp.Point} (h : Q ≠ 0) (k : Nat) : k • Q = 0 ↔ k % curveN = 0 := by
  have : Fact curveN.Prime := ⟨curveN_prime⟩
  rw [← Nat.dvd_iff_mod_eq_zero, ← addOrderOf_eq_prime (curveN_smul Q) h, addOrderOf_dvd_iff_nsmul_eq_zero]

/-- For a valid affine P, k·P is INF exactly when n divides k (41_point_math.md R133). -/
theorem ecMul_eq_inf_iff {P : Point} (hv : P.valid = true) (hP : P ≠ .inf) {k : Nat} (hk : k < 2 ^ 256) :
    ecMul P k = .inf ↔ k % curveN = 0 := by
  obtain ⟨Q, hQ⟩ := (valid_iff_represents P).mp hv
  have hQ0 : Q ≠ 0 := by rintro rfl; exact hP (hQ.unique represents_inf)
  have hm := represents_mul hQ k hk
  rw [← smul_eq_zero_iff hQ0]
  constructor
  · intro h; rw [h] at hm; exact (represents_inf_iff _).mp hm
  · intro h; rw [h] at hm; exact hm.unique represents_inf

end

/-- A valid affine point has order n (00_scope.md R13). -/
theorem hasOrder_curveN {P : Point} (hv : P.valid = true) (hP : P ≠ .inf) : P.hasOrder curveN := by
  have := curveP_fact
  have hn : curveN < 2 ^ 256 := by decide
  refine ⟨curveN_pos, (ecMul_eq_inf_iff hv hP hn).mpr (Nat.mod_self _), fun k h0 hk h => ?_⟩
  have := (ecMul_eq_inf_iff hv hP (hk.trans hn)).mp h
  rw [Nat.mod_eq_of_lt hk] at this
  omega

/-- 00_scope.md R13 holds of the model's constants and point functions. -/
theorem curveFacts_hold : curveFacts :=
  ⟨curveN_prime, (hasOrder_curveN basePoint_valid (by decide)).2.1, fun x y hv =>
    ⟨hasOrder_curveN hv (fun h => Point.noConfusion h), by
      have := curveP_fact
      rintro rfl; exact y_ne_zero ((valid_aff x 0).mp hv).2.2 Nat.cast_zero⟩⟩

end Sys2Proof.Laws
end

