-- ==== Sys2Proof/Laws/PerInstr.lean ====
section
/-! SUPPORT. Per instruction: the word of a well-formed command belongs to the opcode table's row of its own mnemonic
and to no other (30_encoding.md R71, R74; spec/opcode_table.json). The fields of a command word as numbers. -/

namespace Sys2Proof.Laws

theorem opcField_eq (w : Word32) : opcField w = w.toNat % 16 := by
  simp [opcField, BitVec.extractLsb'_toNat, Nat.shiftRight_eq_div_pow]

theorem rsv0Field_eq (w : Word32) : rsv0Field w = w.toNat / 16 % 16 := by
  simp [rsv0Field, BitVec.extractLsb'_toNat, Nat.shiftRight_eq_div_pow]

theorem argField_eq (w : Word32) : argField w = w.toNat / 256 % 256 := by
  simp [argField, BitVec.extractLsb'_toNat, Nat.shiftRight_eq_div_pow]

theorem rsv1Field_eq (w : Word32) : rsv1Field w = w.toNat / 65536 := by
  simp only [rsv1Field, BitVec.extractLsb'_toNat, Nat.shiftRight_eq_div_pow]
  have := w.isLt
  omega

/-- The rows of the opcode table that the word of this command belongs to, if it is well-formed. -/
def TableRow.Statement (i : Instr) : Prop :=
  i.wellFormed = true → (opcodeTable.filter (·.covers (encode i))).map OpcodeRow.mnemonic = [i.mnemonic]

theorem TableRow.padd : TableRow.Statement .padd := fun _ => by decide

theorem TableRow.pdbl : TableRow.Statement .pdbl := fun _ => by decide

theorem TableRow.pmul : TableRow.Statement .pmul := fun _ => by decide

theorem TableRow.sqrt : TableRow.Statement .sqrt := fun _ => by decide

theorem TableRow.decomp (odd : Nat) : TableRow.Statement (.decomp odd) := by
  intro h
  have h2 : odd < 2 := by simpa [Instr.wellFormed] using h
  interval_cases odd <;> decide

theorem TableRow.recover (recid : Nat) : TableRow.Statement (.recover recid) := by
  intro h
  have h4 : recid < 4 := by simpa [Instr.wellFormed] using h
  interval_cases recid <;> decide

theorem TableRow.recoverv (v : Nat) : TableRow.Statement (.recoverv v) := by
  intro h
  have hv : v < 256 := by simpa [Instr.wellFormed] using h
  clear h
  revert v
  decide +kernel

end Sys2Proof.Laws
end

