-- ==== Sys2Proof/Tests/Slice0.lean ====
section
/-! SUPPORT. The model's own tests: ill-formed commands refused, words written out from 30_encoding.md R70 to R72
decoded, the vectors of 95_test_vectors.md section 2 (each test names its vector) run as one step, and for every
statement with hypotheses a witness that meets them. -/

namespace Sys2Proof.Tests
open Sys2Proof.Machine

/-! ## WellFormed (30_encoding.md R77) -/

theorem test_decomp_2_refused : (Instr.decomp 2).wellFormed = false := by decide

theorem test_recover_4_refused : (Instr.recover 4).wellFormed = false := by decide

theorem test_recoverv_256_refused : (Instr.recoverv 256).wellFormed = false := by decide

theorem test_assembler_refuses : assemble (.decomp 2) = none ∧ assemble (.recover 4) = none ∧
    assemble (.recoverv 256) = none ∧ assemble (.recoverv 255) = some 0x0000FF07#32 := by decide

/-! ## Decoding: RSV1 (16 bits), ARG (8), RSV0 (4), OPC (4), from 30_encoding.md R70 to R72 -/

theorem test_decode_padd : decode 0b0000000000000000_00000000_0000_0001#32 = .ok .padd := by decide

theorem test_decode_pdbl : decode 0b0000000000000000_00000000_0000_0010#32 = .ok .pdbl := by decide

theorem test_decode_pmul : decode 0b0000000000000000_00000000_0000_0011#32 = .ok .pmul := by decide

theorem test_decode_sqrt : decode 0b0000000000000000_00000000_0000_0100#32 = .ok .sqrt := by decide

theorem test_decode_decomp : decode 0b0000000000000000_00000000_0000_0101#32 = .ok (.decomp 0) ∧
    decode 0b0000000000000000_00000001_0000_0101#32 = .ok (.decomp 1) := by decide

theorem test_decode_recover : decode 0b0000000000000000_00000001_0000_0110#32 = .ok (.recover 1) ∧
    decode 0b0000000000000000_00000010_0000_0110#32 = .ok (.recover 2) := by decide

theorem test_decode_recoverv : decode 0b0000000000000000_00011011_0000_0111#32 = .ok (.recoverv 27) ∧
    decode 0b0000000000000000_11111111_0000_0111#32 = .ok (.recoverv 255) := by decide

/-- The words of V-ILLEGAL-0 to V-ILLEGAL-80000003. -/
theorem test_decode_illegal : decode 0x00000000#32 = .error .opcode ∧ decode 0x00000008#32 = .error .opcode ∧
    decode 0x0000000F#32 = .error .opcode ∧ decode 0x00000011#32 = .error .reservedLow ∧
    decode 0x00000101#32 = .error .argument ∧ decode 0x00000205#32 = .error .argument ∧
    decode 0x00000406#32 = .error .argument ∧ decode 0x00010007#32 = .error .reservedHigh ∧
    decode 0x80000003#32 = .error .reservedHigh := by decide

theorem test_decodeTableWord : decodeTableWord 32 0x00000106 = some (.recover 1) ∧
    decodeTableWord 32 0x00000009 = none := by decide

/-! ## Commands: the vectors of 95_test_vectors.md, from reset with the operands loaded -/

def gx : Word256 := 0x79be667ef9dcbbac55a06295ce870b07029bfcdb2dce28d959f2815b16f81798#256
def gy : Word256 := 0x483ada7726a3c4655da4fbfc0e1108a8fd17b448a68554199c47d08ffb10d4b8#256
def negGy : Word256 := 0xb7c52588d95c3b9aa25b0403f1eef75702e84bb7597aabe663b82f6f04ef2777#256
def g2x : Word256 := 0xc6047f9441ed7d6d3045406e95c07cd85c778e4b8cef3ca7abac09b95c709ee5#256
def g2y : Word256 := 0x1ae168fea63dc339a3c58419466ceaeef7f632653266d0e1236431a950cfe52a#256
def g3x : Word256 := 0xf9308a019258c31049344f85f89d5229b531c845836f99b08601f113bce036f9#256
def g3y : Word256 := 0x388f7b0f632de8140fe337e62a37f3566500a99934c2231b6cb9fd7584b8e672#256
def g4x : Word256 := 0xe493dbf1c10d80f3581e4904930b1404cc6c13900ee0758474fa94abe8c4cd13#256
def g4y : Word256 := 0x51ed993ea0d455b75642e2098ea51448d967ae33bfbdfe40cfe97bdc47739922#256
def g7x : Word256 := 0x5cbdf0646e5db4eaa398f365f2ea7a0e3d419b7e0330e39ce92bddedcac4f9bc#256
def g7y : Word256 := 0x6aebca40ba255960a3178d6d861a54dba813d0b813fde7b5a5082628087264da#256
/-- 2⁻¹·(1 + 2G.x) mod n, `s1` of 95_test_vectors.md. -/
def s1 : Word256 := 0x63023fca20f6beb69822a0374ae03e6c2e3bc725c6779e53d5d604dcae384f73#256
def pWord : Word256 := 0xfffffffffffffffffffffffffffffffffffffffffffffffffffffffefffffc2f#256
def nWord : Word256 := 0xfffffffffffffffffffffffffffffffebaaedce6af48a03bbfd25e8cd0364141#256

def zero : OperandFile := OperandFile.zero
def opsG : OperandFile := { zero with ax := gx, ay := gy }

/-- The next step runs the command word on these operands. -/
def loaded (o : OperandFile) (w : Nat) : State := State.withFetchWord { State.reset with ops := o } 32 w

/-- STATUS, QX and QY after the next step. -/
def seen (s : State) : Option (Word32 × Word256 × Word256) :=
  match step s with
  | .next t => some (busRead t 0x00C, t.qx, t.qy)
  | .fault _ => none
  | .refused _ => none

/-- V-PADD-1. -/
theorem test_padd_g_2g :
    seen (loaded { opsG with bx := g2x, by_ := g2y } 0x00000001) = some (0x00000002, g3x, g3y) := by decide +kernel

/-- V-PADD-8 (AX, AY not read beside AINF) and V-PADD-12 (A is reported before B). -/
theorem test_padd_checks :
    seen (loaded { zero with ainf := true, ax := pWord, ay := 5, bx := g2x, by_ := g2y } 0x00000001) =
      some (0x00000002, g2x, g2y) ∧
    seen (loaded { zero with ax := 1, ay := 1, bx := gx, by_ := pWord } 0x00000001) = some (0x00000306, 0, 0) := by
  decide +kernel

/-- V-PDBL-2. -/
theorem test_pdbl_2g :
    seen (loaded { zero with ax := g2x, ay := g2y } 0x00000002) = some (0x00000002, g4x, g4y) := by decide +kernel

/-- V-PDBL-4 and V-PDBL-5. -/
theorem test_pdbl_inf_and_range :
    seen (loaded { zero with ainf := true } 0x00000002) = some (0x0000000A, 0, 0) ∧
    seen (loaded { zero with ax := gx, ay := pWord } 0x00000002) = some (0x00000206, 0, 0) := by decide +kernel

/-- V-PMUL-5. -/
theorem test_pmul_7 : seen (loaded { opsG with k := 7 } 0x00000003) = some (0x00000002, g7x, g7y) := by decide +kernel

/-- V-PMUL-1 and V-PMUL-11. -/
theorem test_pmul_0 : seen (loaded { opsG with k := 0 } 0x00000003) = some (0x0000000A, 0, 0) ∧
    seen (loaded { zero with ax := 1, ay := 1 } 0x00000003) = some (0x00000306, 0, 0) := by decide +kernel

/-- V-SQRT-8: the root p - 3 of 9. -/
theorem test_sqrt_9 : seen (loaded { zero with ax := 9 } 0x00000004) = some (0x00000002, pWord - 3, 0) := by
  decide +kernel

/-- V-SQRT-5 and V-SQRT-9. -/
theorem test_sqrt_fails : seen (loaded { zero with ax := 3 } 0x00000004) = some (0x00000406, 0, 0) ∧
    seen (loaded { zero with ax := pWord } 0x00000004) = some (0x00000206, 0, 0) := by decide +kernel

/-- V-DECOMP-1 and V-DECOMP-2. -/
theorem test_decomp_gx : seen (loaded { zero with ax := gx } 0x00000005) = some (0x00000002, gx, gy) ∧
    seen (loaded { zero with ax := gx } 0x00000105) = some (0x00000002, gx, negGy) := by decide +kernel

/-- V-DECOMP-8 and V-DECOMP-10. -/
theorem test_decomp_fails : seen (loaded { zero with ax := 5 } 0x00000105) = some (0x00000306, 0, 0) ∧
    seen (loaded { zero with ax := pWord } 0x00000005) = some (0x00000206, 0, 0) := by decide +kernel

/-- A signature with r = 2⁻¹ mod n, s = 1 and digest 0: the key is 2·R. The expected key and R's y-coordinate are from
integer arithmetic outside Lean. -/
def opsHalf : OperandFile :=
  { zero with sigR := 0x7fffffffffffffffffffffffffffffff5d576e7357a4501ddfe92f46681b20a1#256, sigS := 1 }

def halfY : Nat := 0x3a53db6929bff75456584e314611ab583023835d15d9a01a517b369b2b6f66e4
def halfKeyX : Word256 := 0x13c05010ebcd27c77b7281a566e2924920f56af05883548861a53dcfd3cc597b#256
def halfKeyEven : Word256 := 0xce29cbc3e19d356fe0ddc954ffad36403f15c4b57069cbff0579bef09433fd67#256
def halfKeyOdd : Word256 := 0x31d6343c1e62ca901f2236ab0052c9bfc0ea3b4a8f963400fa86410e6bcbfec8#256

theorem test_recover_half : seen (loaded opsHalf 0x00000006) = some (0x00000002, halfKeyX, halfKeyEven) ∧
    seen (loaded opsHalf 0x00000106) = some (0x00000002, halfKeyX, halfKeyOdd) := by decide +kernel

/-- V-RECOVER-3, V-RECOVER-5, V-RECOVER-6, and INF in step 10 as in V-RECOVER-11. -/
theorem test_recover_fails : seen (loaded opsHalf 0x00000206) = some (0x00000606, 0, 0) ∧
    seen (loaded { opsHalf with sigR := 0 } 0x00000006) = some (0x00000706, 0, 0) ∧
    seen (loaded { opsHalf with sigR := nWord } 0x00000006) = some (0x00000506, 0, 0) ∧
    seen (loaded { opsHalf with sigS := 0 } 0x00000006) = some (0x00000706, 0, 0) := by decide +kernel

theorem test_recoverv_half : seen (loaded opsHalf 0x00001B07) = some (0x00000002, halfKeyX, halfKeyEven) ∧
    seen (loaded opsHalf 0x00000107) = some (0x00000002, halfKeyX, halfKeyOdd) := by decide +kernel

/-- V-RECOVERV-26, V-RECOVERV-29, V-RECOVERV-229. -/
theorem test_recoverv_fails : seen (loaded opsHalf 0x00001A07) = some (0x00000506, 0, 0) ∧
    seen (loaded opsHalf 0x00001D07) = some (0x00000506, 0, 0) ∧
    seen (loaded opsHalf 0x0000E507) = some (0x00000506, 0, 0) := by decide +kernel

/-- V-ILLEGAL-101. -/
theorem test_illegal : seen (loaded opsG 0x00000101) = some (0x00000106, 0, 0) := by decide +kernel

/-! ## The window and the lifecycle: vectors V-LC -/

/-- Written with the host's accesses, in order. -/
def writes (l : List (Nat × Word32)) (s : State) : State := l.foldl (fun s p => busWrite p.1 p.2 s) s

/-- V-LC-2. -/
theorem test_lc2 : busWrite 0x000 0x12345678 State.reset = State.reset := by decide

/-- V-LC-4: writes while busy. -/
theorem test_lc4 : busRead (writes [(0x100, 5), (0x008, 1), (0x018, 1)] (loaded opsG 2)) 0x00C = 0x00010001 ∧
    busRead (writes [(0x100, 5), (0x008, 1), (0x018, 1)] (loaded opsG 2)) 0x008 = 2 ∧
    (writes [(0x100, 5), (0x008, 1), (0x018, 1)] (loaded opsG 2)).ops = opsG ∧
    busRead (writes [(0x010, 1)] (loaded opsG 2)) 0x010 = 1 := by decide +kernel

/-- V-LC-5 to V-LC-7: completion with WERR pending, acknowledge, clearing WERR. -/
theorem test_lc5 : ∃ t, step (writes [(0x100, 5), (0x010, 1)] (loaded opsG 2)) = .next t ∧
    busRead t 0x00C = 0x00010002 ∧ t.qx = g2x ∧ t.qy = g2y ∧ t.irq = true ∧ (busWrite 0x014 1 t).irq = false ∧
    busRead (busWrite 0x00C 0x00010000 t) 0x00C = 0x00000002 := by
  refine ⟨_, rfl, ?_⟩
  decide +kernel

/-- V-LC-11: defined bits only. -/
theorem test_lc11 : busRead (busWrite 0x010 0xFFFFFFFF State.reset) 0x010 = 1 ∧
    busRead (busWrite 0x018 0xFFFFFFFF State.reset) 0x018 = 3 := by decide +kernel

/-- V-LC-12: one word at a time. -/
theorem test_lc12 : (writes [(0x11C, 0)] { State.reset with ops := opsG }).ops.ax =
      0x79be667ef9dcbbac55a06295ce870b07029bfcdb2dce28d959f2815b00000000#256 ∧
    (writes [(0x118, 0xFFFFFFFF)] State.reset).ops.ax = 0xffffffff00000000#256 := by decide +kernel

/-- V-LC-15: a 32-bit access at an offset that is no multiple of 4, and a byte access, are bus errors. -/
theorem test_lc15 (s : State) : hostAccess (.rd (Config.ecrBase + 2) .word "x") s = .fault .busError ∧
    hostAccess (.wr (Config.ecrBase + 8) .byte 1) s = .fault .busError := by
  simp [hostAccess, busAccess, windowOffset]

/-- 30_encoding.md R79: the words of an earlier read of the same name are older in the list, and one word short is no
value. -/
theorem test_rd256_value :
    hostValue256 { State.reset with hostVals := [("g.w7", 8), ("g.w6", 7), ("g.w5", 6), ("g.w4", 5), ("g.w3", 4),
      ("g.w2", 3), ("g.w1", 2), ("g.w0", 1), ("g.w0", 9)] } "g" =
        some 0x0000000100000002000000030000000400000005000000060000000700000008#256 ∧
    hostValue256 { State.reset with hostVals := [("g.w0", 1)] } "g" = none := by decide +kernel

/-- 30_encoding.md R77, R79: `cmd RECOVERV 256` and `run DECOMP 2` are refused. -/
theorem test_cmd_refuses : cmdOps (.recoverv 256) = none ∧ runOps (.decomp 2) = none ∧
    cmdOps (.decomp 1) = some [wrOp 0x008 0x00000105] := ⟨rfl, rfl, rfl⟩

/-- 20_memory.md R54, with the digest of 95_test_vectors.md: the first four bytes are word 0. -/
theorem test_bytes : wordOfBytes [0xca, 0x5e, 0x3f, 0x85, 0x08, 0x77, 0xea, 0x10] 0 = 0xCA5E3F85#32 ∧
    bytesOfWord 0xCA5E3F85#32 = [0xca, 0x5e, 0x3f, 0x85] := by decide

/-! ## Witnesses: for each statement with hypotheses, states and operands that meet all of them, for each clause -/

/-- Busy with this word, this many steps left, these events to come. -/
def busyWith (o : OperandFile) (w : Word32) (steps : Nat) (es : List Event) : State :=
  { State.reset with ops := o, cmd := w, busy := true, remaining := steps, events := es }

theorem witness_DecodeInvertsEncode : (∀ i ∈ [Instr.padd, .pdbl, .pmul, .sqrt, .decomp 0, .decomp 1, .recover 0,
    .recover 3, .recoverv 0, .recoverv 255], i.wellFormed = true) := by decide

theorem witness_EncodeInvertsDecode : decode 0x00000001#32 = .ok .padd ∧ decode 0x00000306#32 = .ok (.recover 3) ∧
    decode 0x0000FF07#32 = .ok (.recoverv 255) := by decide

/-- The words of `test_decode_illegal` and the other bounds of 30_encoding.md R73, in flight. -/
theorem witness_IllegalWordsFail : State.reset.busy = false ∧ (∀ w, (busyWith zero w 1 []).completesNext []) ∧
    decode 0x00000010#32 = .error .reservedLow ∧ decode 0x00010001#32 = .error .reservedHigh ∧
    decode 0x00000104#32 = .error .argument :=
  ⟨rfl, fun _ => ⟨rfl, rfl, rfl, .inl ⟨rfl, rfl⟩⟩, by decide⟩

theorem witness_StepRunsDecodedCommand : (busyWith opsG 2 1 []).completesNext [] ∧
    (busyWith opsG 2 1 [.engine, .resetAssert]).completesNext [.resetAssert] ∧
    decode (busyWith opsG 2 1 []).cmd = .ok .pdbl := by decide

theorem witness_PlacedCommandRunsNext : (Instr.recoverv 255).wellFormed = true := by decide

theorem witness_EngineStepBeforeCompletionIsInvisible :
    (busyWith zero 1 2 []).resetHeld = false ∧ (busyWith zero 1 2 []).engineNext [] ∧
    (busyWith zero 1 2 []).busy = true ∧ 1 < (busyWith zero 1 2 []).remaining ∧
    (busyWith zero 1 2 [.engine]).engineNext [] ∧ State.reset.engineNext [] ∧ State.reset.busy = false ∧
    State.reset.resetHeld = false := by decide

theorem witness_AcceptStartsTheCommand : State.reset.busy = false ∧ (busyWith zero 1 1 []).busy = true := by decide

theorem witness_FailedCommandKeepsTheResult : State.reset.err = false ∧
    (∃ t, exec .padd State.reset = .next t ∧ t.err = true) ∧
    (∃ t, exec .sqrt State.reset = .next t ∧ t.err = false) := by
  refine ⟨rfl, ⟨_, rfl, ?_⟩, ⟨_, rfl, ?_⟩⟩ <;> decide +kernel

/-- Operand files that differ in every register the command does not read. -/
theorem witness_CommandReadsOnlyItsRegisters :
    sameReads .padd { opsG with binf := true, bx := 1 } { opsG with binf := true, bx := 2, k := 3, sigR := 4 } ∧
    sameReads .pdbl opsG { opsG with binf := true, bx := 1, by_ := 2, k := 3, sigR := 4, sigS := 5, digest := 6 } ∧
    sameReads .pmul { zero with ainf := true, k := 2 } { zero with ainf := true, ax := 1, k := 2, sigR := 3 } ∧
    sameReads .sqrt opsG { opsG with ainf := true, ay := 1, bx := 2 } ∧
    sameReads (.decomp 1) opsG { opsG with ainf := true, ay := 1, bx := 2 } ∧
    sameReads (.recover 1) opsHalf { opsHalf with ainf := true, ax := 1, k := 2 } ∧
    sameReads (.recoverv 28) opsHalf { opsHalf with binf := true, by_ := 1, k := 2 } := by
  simp [sameReads, sameA, sameB, sameSignature, opsG, opsHalf, zero, OperandFile.zero]

/-- Each command failing from a state with ERR = 0. -/
theorem witness_ErrorCodesByCommand : State.reset.err = false ∧
    ∀ i ∈ [Instr.padd, .pdbl, .pmul, .decomp 0, .recover 2, .recover 0, .recoverv 2, .recoverv 27],
      (match exec i State.reset with | .next t => t.err | .fault _ => false | .refused _ => false) = true := by
  decide +kernel

theorem witness_ErrorCodesByCommand_sqrt :
    (match exec .sqrt { State.reset with ops := { zero with ax := 3 } } with
      | .next t => t.err && t.errcode == 0x4 | .fault _ => false | .refused _ => false) = true := by decide +kernel

theorem witness_OperandsFrozenWhileBusy : (busyWith zero 1 2 []).busy = true ∧
    (busyWith zero 1 2 []).events.head? ≠ some .resetAssert ∧ ∃ t, step (busyWith zero 1 2 []) = .next t :=
  ⟨rfl, by decide, _, rfl⟩

/-- The result changes at a success, from a state of the lifecycle, and by reset. -/
theorem witness_ResultChangesOnlyOnSuccess : (busyWith opsG 2 1 []).lifecycleOk ∧
    (∃ t, step (busyWith opsG 2 1 []) = .next t ∧ t.qx ≠ (busyWith opsG 2 1 []).qx) ∧
    (∃ t, step { State.reset with qinf := true, events := [.resetAssert] } = .next t ∧ t.qinf ≠ true) := by
  refine ⟨?_, ⟨_, rfl, ?_⟩, ⟨_, rfl, ?_⟩⟩ <;> decide +kernel

/-- A command in flight with two steps left, a read, a write that is dropped and a failing poll still to come. -/
theorem witness_CommandInFlightCompletes :
    ∃ s : State, s = busyWith opsG 2 2 [.host (rdOp 0x00C "x"), .host (wrOp 0x100 5), .host (pollOp 0x00C 2 2), .engine] ∧
      s.resetHeld = false ∧ s.busy = true ∧ ∀ e ∈ s.events, e.harmless = true := by
  refine ⟨_, rfl, rfl, rfl, ?_⟩
  simp [busyWith, rdOp, wrOp, pollOp, Event.harmless, HostOp.legal, windowOffset]

theorem witness_CommandWritesOnlyItsOutcome : ∀ off ∈ [0x008, 0x010, 0x018, 0x1FC, 0x240], off ≠ 0x00C ∧ off ≠ 0x014 ∧
    ¬(0x200 ≤ off ∧ off < 0x240) := by decide

theorem witness_InversesAreUnique : 2 % curveP ≠ 0 ∧ (curveP + 1) % curveP ≠ 0 ∧ 2 % curveN ≠ 0 ∧
    (curveN - 1) % curveN ≠ 0 := by decide

theorem witness_EcDoubleIsTheTangentRule : curveGx < curveP ∧ curveGy < curveP ∧ curveGy ≠ 0 ∧ curveP - 1 < curveP ∧
    basePoint.valid = true := by decide

theorem witness_EcAddIsTheChordRule : (1 : Nat) ≠ 2 ∧ curveGx < curveP ∧ curveGy < curveP ∧ g2x.toNat < curveP ∧
    g2y.toNat < curveP ∧ curveGx ≠ g2x.toNat ∧ (Point.aff gx.toNat gy.toNat).valid = true ∧
    (Point.aff gx.toNat negGy.toNat).valid = true ∧ gy.toNat ≠ negGy.toNat := by decide

theorem witness_EcMulIsDoubleAndAdd : (0 : Nat) < 2 ^ 256 ∧ 2 ^ 255 - 1 < 2 ^ 255 := by decide

/-- The clauses of the point check: range (p, the first value out of range), curve, valid, and INF. -/
theorem witness_outOfRange : outOfRange (.aff curveP 0) ∧ outOfRange (.aff 0 curveP) ∧
    ¬outOfRange (.aff (curveP - 1) 0) ∧ offCurve (.aff (curveP - 1) 0) ∧ ¬outOfRange .inf ∧ ¬offCurve .inf ∧
    ¬outOfRange basePoint ∧ ¬offCurve basePoint := by
  simp only [outOfRange, offCurve, basePoint]
  decide

theorem witness_PaddChecksThenAdds :
    operandA { zero with ax := pWord } = .aff curveP 0 ∧ operandA { zero with ax := pWord - 1 } = .aff (curveP - 1) 0 ∧
    operandA opsG = basePoint ∧ operandB { opsG with bx := pWord } = .aff curveP 0 ∧
    operandB { opsG with bx := pWord - 1 } = .aff (curveP - 1) 0 ∧ operandB { opsG with binf := true } = .inf := by
  decide

theorem witness_PdblChecksThenDoubles : operandA { zero with ay := pWord } = .aff 0 curveP ∧
    operandA { zero with ax := pWord - 1 } = .aff (curveP - 1) 0 ∧ operandA opsG = basePoint := by decide

theorem witness_PmulChecksThenMultiplies : operandA { zero with ay := pWord, k := 0 } = .aff 0 curveP ∧
    operandA { zero with ax := pWord - 1 } = .aff (curveP - 1) 0 ∧ operandA { opsG with k := nWord } = basePoint := by
  decide

theorem witness_PdblOfAffineIsAffine : opsG.ainf = false ∧ (operandA opsG).valid = true := by decide

theorem witness_EcMulAddsScalars : basePoint.valid = true ∧ (2 ^ 256 - 2) + 1 < 2 ^ 256 := by decide

theorem witness_PmulReducesTheScalar : (operandA { opsG with k := nWord }).valid = true ∧
    operandA { opsG with k := nWord } ≠ .inf ∧ nWord.toNat % curveN = 0 ∧
    (operandA { opsG with k := 1 }).valid = true ∧ (operandA { zero with ainf := true }).valid = true := by decide

theorem witness_SqrtReturnsTheCandidate : curveP ≤ pWord.toNat ∧ (pWord - 1).toNat < curveP ∧
    (let c := sqrtCandidate 9; c * c % curveP = 9) ∧ (let c := sqrtCandidate 3; c * c % curveP ≠ 3) := by
  decide +kernel

theorem witness_SqrtFindsEveryRoot : (∃ c, c * c % curveP = (0 : Nat)) ∧ (∃ c, c * c % curveP = 4) ∧
    (4#256).toNat < curveP := ⟨⟨0, rfl⟩, ⟨2, by decide⟩, by decide⟩

/-- V-SQRT-5: 3 is below p and has no square root. -/
theorem witness_SqrtFindsEveryRoot_none : (3#256).toNat < curveP ∧ ¬∃ c, c * c % curveP = (3#256).toNat :=
  ⟨by decide, fun h => absurd (Laws.sqrtCandidate_sq h) (by decide +kernel)⟩

/-- V-DECOMP-8, V-RECOVER-8: 5 is below p and has no point. -/
theorem witness_noPoint : (5#256).toNat < curveP ∧ ¬hasPoint (5#256).toNat :=
  ⟨by decide, fun h => absurd (Laws.sqrtCandidate_sq h) (by decide +kernel)⟩

theorem witness_DecompReturnsTheWantedPoint : curveP ≤ pWord.toNat ∧ curveGx < curveP ∧ hasPoint curveGx ∧
    (1 : Nat) < 2 := ⟨by decide, by decide, ⟨curveGy, by decide⟩, by decide⟩

theorem witness_DecompParitiesAreNegatives : curveN < curveP ∧ hasPoint curveN :=
  ⟨by decide, ⟨0x98f66641cb0ae1776b463ebdee3d77fe2658f021db48e2c8ac7ab4c92f83621e, by decide⟩⟩

/-- The y of V-DECOMP-5: r = n decodes, and is 0 modulo n. -/
theorem witness_RecoverStopsAtTheFirstFailure : (2 : Nat) ≤ 2 ∧ (1 : Nat) < 2 ∧ curveP ≤ pWord.toNat ∧
    nWord.toNat < curveP ∧ hasPoint nWord.toNat ∧ nWord.toNat % curveN = 0 :=
  ⟨by decide, by decide, by decide, by decide,
    ⟨0x98f66641cb0ae1776b463ebdee3d77fe2658f021db48e2c8ac7ab4c92f83621e, by decide⟩, by decide⟩

/-- A signature whose key is a point, and one (s = 0, e = 0) whose key is INF. -/
theorem witness_RecoverReturnsTheKey :
    opsHalf.sigR.toNat < curveP ∧ halfY < curveP ∧
    halfY * halfY % curveP = (opsHalf.sigR.toNat * opsHalf.sigR.toNat * opsHalf.sigR.toNat + 7) % curveP ∧
    halfY % 2 = 0 ∧ opsHalf.sigR.toNat % curveN ≠ 0 ∧ opsHalf.sigR.toNat * 2 % curveN = 1 ∧
    ecMul (ecAdd (ecMul (.aff opsHalf.sigR.toNat halfY) 1) (ecNeg (ecMul basePoint (0 % curveN)))) 2 ≠ .inf ∧
    ecMul (ecAdd (ecMul (.aff opsHalf.sigR.toNat halfY) 0) (ecNeg (ecMul basePoint (0 % curveN)))) 2 = .inf := by
  decide +kernel

theorem witness_InvalidSignatureOnlyForOrder : State.reset.err = false ∧ State.reset.ops.sigR.toNat = 0 ∧
    nWord.toNat = curveN ∧
    ∃ t, exec (.recover 1) { State.reset with ops := { zero with sigR := nWord } } = .next t ∧ t.err = true ∧
      t.errcode = 0x5 := by
  refine ⟨rfl, rfl, by decide, _, rfl, ?_⟩
  decide +kernel

theorem witness_RecovervNormalisesV : (0 : Nat) < 256 ∧ 255 < 256 ∧ (2 ≠ 0 ∧ 2 ≠ 1 ∧ 2 ≠ 27 ∧ 2 ≠ 28) ∧
    (26 ≠ 0 ∧ 26 ≠ 1 ∧ 26 ≠ 27 ∧ 26 ≠ 28) ∧ (29 ≠ 0 ∧ 29 ≠ 1 ∧ 29 ≠ 27 ∧ 29 ≠ 28) := by decide

/-- 95_test_vectors.md T6: private key 1, nonce 2, digest 1. -/
theorem witness_RecoverInvertsSigning : (1 : Nat) < curveN ∧ ecMul basePoint 2 = .aff g2x.toNat g2y.toNat ∧
    0 < g2x.toNat ∧ g2x.toNat < curveN ∧ s1.toNat * 2 % curveN = (1 + g2x.toNat * 1) % curveN := by decide +kernel

theorem witness_ResultsAreValidPoints : Instr.pdbl ≠ .sqrt ∧
    ∃ t, exec .pdbl { State.reset with ops := opsG } = .next t ∧ t.err = false := by
  refine ⟨by decide, _, rfl, ?_⟩
  decide +kernel

/-- A completion from a state that meets the invariant. -/
theorem witness_StepKeepsInvariant : (busyWith opsG 2 1 []).Inv ∧ ∃ t, step (busyWith opsG 2 1 []) = .next t :=
  ⟨by decide +kernel, _, rfl⟩

theorem witness_ConstantsAreHardwired : (7 : Nat) < 8 ∧ 0x300 ≤ 0x300 ∧ 0x37F < 0x380 := by decide

theorem witness_CmdHoldsTheLastAcceptedWord : State.reset.busy = false ∧ (busyWith zero 1 1 []).busy = true ∧
    (∃ t, step { State.reset with events := [.host (wrOp 0x008 2)] } = .next t ∧ t.cmd ≠ 0) ∧
    (∃ t, step (busyWith zero 1 1 [.resetAssert]) = .next t ∧ t.cmd ≠ 1) := by
  refine ⟨rfl, rfl, ?_, _, rfl, by decide⟩
  refine ⟨accept 2 State.reset, ?_, by simp [accept]⟩
  simp [step, nextEvent, liveEvent, wrOp, hostAccess, busAccess, windowOffset, State.reset, busWrite, writeCtrl,
    show windowWord 8 = .ctrl .cmd from rfl]

theorem witness_WerrIsSticky : (busyWith zero 1 1 []).busy = true ∧ (0x1FC % 4 = 0 ∧ 0x100 ≤ 0x1FC ∧ 0x1FC < 0x200) ∧
    (∃ t, step { State.reset with werr := true, events := [.host (wrOp 0x00C 0x00010000)] } = .next t ∧
      t.werr = false) ∧
    (∃ t, step (busyWith zero 1 1 [.host (wrOp 0x1FC 5)]) = .next t ∧ t.werr = true) := by
  refine ⟨rfl, by decide, ⟨State.reset, ?_, rfl⟩, ⟨dropWrite (busyWith zero 1 1 []), ?_, rfl⟩⟩
  · simp [step, nextEvent, liveEvent, wrOp, hostAccess, busAccess, windowOffset, State.reset, busWrite, writeCtrl,
      show windowWord 0xC = .ctrl .status from rfl]
  · simp [step, nextEvent, liveEvent, wrOp, hostAccess, busAccess, windowOffset, State.reset, busWrite, writeWide,
      busyWith, WideReg.isOperand, show windowWord 0x1FC = .wide .digest 7 from rfl]

theorem witness_InterruptPendingRegister : (busyWith opsG 2 1 []).completesNext [] ∧
    ∃ t, step (busyWith opsG 2 1 []) = .next t := ⟨by decide, _, rfl⟩

theorem witness_OperandFlagsRegister : State.reset.busy = false := rfl

/-- The ends of each reserved range. -/
theorem witness_ReservedReadsZero : ∀ off ∈ [0x01C, 0x0FF, 0x240, 0x2FF, 0x380, 0xFFC],
    (0x01C ≤ off ∧ off < 0x100) ∨ (0x240 ≤ off ∧ off < 0x300) ∨ (0x380 ≤ off ∧ off < 0x1000) := by decide

/-- A byte write to CMD and a word access at an offset that is no multiple of 4. -/
theorem witness_BadAccessFaults (es : List Event) :
    let s : State := { State.reset with events := .host (.wr (Config.ecrBase + 8) .byte 1) :: es }
    let s' : State := { State.reset with events := .host (.rd (Config.ecrBase + 4095) .word "x") :: es }
    let s'' : State := { State.reset with events := .host (.poll (Config.ecrBase + 2) 1 1) :: es }
    s.resetHeld = false ∧ s.events = .host (.wr (Config.ecrBase + 8) .byte 1) :: es ∧ AccessSize.byte ≠ .word ∧
    s'.resetHeld = false ∧ s'.events = .host (.rd (Config.ecrBase + 4095) .word "x") :: es ∧ 4095 % 4 ≠ 0 ∧
    s''.resetHeld = false ∧ s''.events = .host (.poll (Config.ecrBase + 2) 1 1) :: es ∧ 2 % 4 ≠ 0 :=
  ⟨rfl, rfl, by decide, rfl, rfl, by decide, rfl, rfl, by decide⟩

/-- The addresses just outside the window, below (where the window does not start at 0) and above it, and the last word
in it, for each kind of access. -/
theorem witness_WindowBounds (v : Word32) :
    (Config.ecrBase + 4096 < Config.ecrBase ∨ Config.ecrBase + 4096 ≤ Config.ecrBase + 4096) ∧
    (∃ s : State, s.resetHeld = false ∧ s.events = [.host (.wr (Config.ecrBase + 4096) .word v)]) ∧
    (∃ s : State, s.resetHeld = false ∧ s.events = [.host (.rd (Config.ecrBase + 4096) .word "x")]) ∧
    (∃ s : State, s.resetHeld = false ∧ s.events = [.host (.poll (Config.ecrBase + 4096) 1 1)]) ∧
    (∃ s : State, s.resetHeld = false ∧ s.events = [.host (.wr (Config.ecrBase + 4092) .word v)]) ∧
    4092 < 4096 ∧ 4092 % 4 = 0 :=
  ⟨.inr le_rfl, ⟨{ State.reset with events := [.host (.wr (Config.ecrBase + 4096) .word v)] }, rfl, rfl⟩,
    ⟨{ State.reset with events := [.host (.rd (Config.ecrBase + 4096) .word "x")] }, rfl, rfl⟩,
    ⟨{ State.reset with events := [.host (.poll (Config.ecrBase + 4096) 1 1)] }, rfl, rfl⟩,
    ⟨{ State.reset with events := [.host (.wr (Config.ecrBase + 4092) .word v)] }, rfl, rfl⟩, by decide, by decide⟩

theorem witness_ReadReturnsAndChangesNothing : (0x380 ≤ 0xFFC ∧ 0xFFC < 0x1000) ∧
    (∀ off ∈ [0x100, 0x11C], off % 4 = 0 ∧ WideReg.ax.offset ≤ off ∧ off < WideReg.ax.offset + 32) ∧
    ∃ s : State, s.resetHeld = false ∧ s.events = [.host (.rd (Config.ecrBase + 0xFFC) .word "x")] :=
  ⟨by decide, by decide, { State.reset with events := [.host (.rd (Config.ecrBase + 0xFFC) .word "x")] }, rfl, rfl⟩

/-- A poll of STATUS for DONE: it does not match while the command is in flight, and matches after a completion. -/
theorem witness_ReadReturnsAndChangesNothing_poll :
    (∃ s : State, s.resetHeld = false ∧ s.events = [.host (.poll (Config.ecrBase + 0x00C) 2 2)] ∧
      busRead s 0x00C &&& 2 ≠ 2) ∧
    (∃ s : State, s.resetHeld = false ∧ s.events = [.host (.poll (Config.ecrBase + 0x00C) 2 2)] ∧
      busRead s 0x00C &&& 2 = 2) :=
  ⟨⟨busyWith opsG 2 1 [.host (.poll (Config.ecrBase + 0x00C) 2 2)], rfl, rfl, by decide +kernel⟩,
    ⟨{ State.reset with done := true, events := [.host (.poll (Config.ecrBase + 0x00C) 2 2)] }, rfl, rfl,
      by decide +kernel⟩⟩

theorem witness_WideRegisterWordOrder : (7 : Nat) < 8 ∧ 31 < 32 := by decide

theorem witness_IdleWriteReplacesOneWord : State.reset.busy = false ∧
    ∀ off ∈ [0x100, 0x11C, 0x120, 0x1FC], off % 4 = 0 ∧ 0x100 ≤ off ∧ off < 0x200 := by decide

theorem witness_ReadOnlyWritesIgnored : ∀ off ∈ [0x000, 0x004, 0x01C, 0x0FC, 0x200, 0xFFC],
    off = 0x000 ∨ off = 0x004 ∨ (0x01C ≤ off ∧ off < 0x100) ∨ 0x200 ≤ off := by decide

theorem witness_BusyWritesAreDropped : (busyWith zero 1 1 []).busy = true ∧
    ∀ off ∈ [0x008, 0x018, 0x100, 0x1FC], off = 0x008 ∨ off = 0x018 ∨ (off % 4 = 0 ∧ 0x100 ≤ off ∧ off < 0x200) := by
  decide

theorem witness_InterruptOutput : (busyWith opsG 2 1 []).completesNext [] ∧ (busyWith opsG 2 1 []).doneip = false ∧
    ∃ t, step (busyWith opsG 2 1 []) = .next t ∧ t.doneip = true := ⟨by decide, rfl, _, rfl, by decide +kernel⟩

theorem witness_ResetRestoresEverything :
    (busyWith opsG 2 5 [.resetAssert, .engine]).events = .resetAssert :: [.engine] ∧
    (∃ s : State, s.resetHeld = true ∧ s.events = []) ∧
    (∃ s : State, s.resetHeld = true ∧ s.events = [.host (wrOp 0x008 1)]) :=
  ⟨rfl, ⟨{ State.reset with resetHeld := true }, rfl, rfl⟩,
    ⟨{ State.reset with resetHeld := true, events := [.host (wrOp 0x008 1)] }, rfl, rfl⟩⟩

theorem witness_ResetDiscardsTheCommand :
    (busyWith opsG 2 5 [.resetAssert, .resetRelease, .engine]).resetHeld = false ∧
    (busyWith opsG 2 5 [.resetAssert, .resetRelease, .engine]).busy = true ∧
    (busyWith opsG 2 5 [.resetAssert, .resetRelease, .engine]).events =
      .resetAssert :: .resetRelease :: .engine :: [] := ⟨rfl, rfl, rfl⟩

theorem witness_CommandsAfterReset : operandA { zero with k := 5, bx := gx } = .aff 0 0 ∧
    (operandA opsG).valid = true ∧ operandB opsG = .aff 0 0 ∧ (operandA { zero with ainf := true }).valid = true ∧
    { zero with ay := gy }.ax = 0 ∧ opsG.sigR = 0 ∧ (1 : Nat) < 2 := by decide

theorem witness_Ld256LoadsTheRegister :
    (∃ s : State, s.resetHeld = false ∧ s.busy = false ∧ WideReg.digest.isOperand = true ∧
      s.events = (ld256Ops .digest gx).map .host ++ []) ∧
    (∃ s : State, s.resetHeld = false ∧ s.busy = true ∧ s.events = (rd256Ops .qx "q").map .host ++ [.engine]) :=
  ⟨⟨{ State.reset with events := (ld256Ops .digest gx).map .host ++ [] }, rfl, rfl, rfl, rfl⟩,
    ⟨busyWith opsG 2 1 ((rd256Ops .qx "q").map .host ++ [.engine]), rfl, rfl, rfl⟩⟩

theorem witness_RunReachesTheOutcome : (Instr.decomp 2).wellFormed = false ∧
    ∃ ops, runOps .pdbl = some ops ∧
      ∃ s : State, s.resetHeld = false ∧ s.busy = false ∧ s.events = ops.map .host ++ [.engine] :=
  ⟨rfl, _, rfl, { State.reset with ops := opsG, events := ((runOps .pdbl).getD []).map .host ++ [.engine] },
    rfl, rfl, rfl⟩

end Sys2Proof.Tests
end

section
/-! PMUL by K is PMUL by K mod n (41_point_math.md R133). -/

namespace Sys2Proof.Proofs
open Sys2Proof.Machine Sys2Proof.Laws

/-- QINF says that the result registers stand for INF (10_state.md R33). -/
theorem qinf_iff_result_eq_inf (s : State) : s.qinf = true ↔ s.result = .inf := by
  cases h : s.qinf <;> simp [State.result, h]

/-- On a valid point the scalar counts modulo n: both multiples are the same element of the group. -/
theorem ecMul_mod_curveN {P : Point} (hv : P.valid = true) {k : Nat} (hk : k < 2 ^ 256) :
    ecMul P (k % curveN) = ecMul P k := by
  have := curveP_fact
  obtain ⟨Q, hQ⟩ := (valid_iff_represents P).mp hv
  have hmod := represents_mul hQ (k % curveN) ((Nat.mod_le k curveN).trans_lt hk)
  rw [smul_mod] at hmod
  exact hmod.unique (represents_mul hQ k hk)

/-- PMUL of a valid A completes with the multiple K·A (41_point_math.md R136). -/
theorem exec_pmul_of_valid {s : State} (hv : (operandA s.ops).valid = true) :
    exec .pmul s = .next (complete (.ok (ecMul (operandA s.ops) s.ops.k.toNat)) s) := by
  simp only [exec, execPmul, pmulResult, checkPoint_of_valid hv]

/-- Settles O27: the multiples by K and by K mod n are one element of the group, whose order is n. -/
theorem pmulReducesTheScalar : Obligations.PmulReducesTheScalar := by
  have := curveP_fact
  refine ⟨curveFacts_hold, fun s hv => ?_⟩
  have hk : s.ops.k.toNat < 2 ^ 256 := s.ops.k.isLt
  have hfits := fits_of_valid (ecMul_valid hv hk)
  refine ⟨_, exec_pmul_of_valid hv, ?_, fun hA => ?_⟩
  · rw [ecMul_mod_curveN hv hk]
    exact succeededAs_complete hfits s
  · rw [qinf_iff_result_eq_inf, complete_ok_result hfits]
    exact ecMul_eq_inf_iff hv hA hk

end Sys2Proof.Proofs
end

section
/-! What a successful command returns: a valid point, and for DECOMP, RECOVER and RECOVERV an affine one
(40_command_execution.md R110); for SQRT a root with QY = 0 (42_point_decoder.md R154). -/

namespace Sys2Proof.Proofs
open Sys2Proof.Machine Sys2Proof.Laws

theorem valid_of_checkPoint_ok {P : Point} {u : Unit} (h : checkPoint P = .ok u) : P.valid = true := by
  rcases checkPoint_cases P with ⟨hv, -⟩ | ⟨-, he | he⟩
  · exact hv
  · rw [he] at h; cases h
  · rw [he] at h; cases h

theorem paddResult_valid {o : OperandFile} {q : Point} (h : paddResult o = .ok q) : q.valid = true := by
  simp only [paddResult] at h
  split at h
  · cases h
  · next hA =>
    split at h
    · cases h
    · next hB => cases h; exact ecAdd_valid (valid_of_checkPoint_ok hA) (valid_of_checkPoint_ok hB)

theorem pdblResult_valid {o : OperandFile} {q : Point} (h : pdblResult o = .ok q) : q.valid = true := by
  simp only [pdblResult] at h
  split at h
  · cases h
  · next hA => cases h; exact ecDouble_valid (valid_of_checkPoint_ok hA)

theorem pmulResult_valid {o : OperandFile} {q : Point} (h : pmulResult o = .ok q) : q.valid = true := by
  simp only [pmulResult] at h
  split at h
  · cases h
  · next hA => cases h; exact ecMul_valid (valid_of_checkPoint_ok hA) o.k.isLt

theorem sqrtResult_eq_aff_zero {o : OperandFile} {q : Point} (h : sqrtResult o = .ok q) :
    q = .aff (sqrtCandidate o.ax.toNat) 0 := by
  simp only [sqrtResult] at h
  split at h
  · cases h
  · split at h <;> cases h
    rfl

theorem decompResult_valid {odd : Nat} {o : OperandFile} {q : Point} (h : decompResult odd o = .ok q) :
    q.valid = true ∧ q ≠ .inf := by
  simp only [decompResult] at h
  split at h
  · cases h
  · next hx => exact decompress_valid (Nat.lt_of_not_le hx) h

theorem recoverFrom_valid {R q : Point} {r s e : Nat} (hR : R.valid = true) (hs : s < 2 ^ 256)
    (h : recoverFrom R r s e = .ok q) : q.valid = true ∧ q ≠ .inf := by
  simp only [recoverFrom] at h
  split at h
  · cases h
  · next hr =>
    split at h
    · cases h
    · next x y hk =>
      cases h
      exact ⟨hk ▸ recoveredKey_valid hR hs hr, Point.noConfusion⟩

theorem recoverPublicKey_valid {r s e recid : Nat} {q : Point} (hs : s < 2 ^ 256)
    (h : recoverPublicKey r s e recid = .ok q) : q.valid = true ∧ q ≠ .inf := by
  simp only [recoverPublicKey] at h
  split at h
  · cases h
  · split at h
    · cases h
    · next hr =>
      split at h
      · cases h
      · next R hd => exact recoverFrom_valid (decompress_valid (Nat.lt_of_not_le hr) hd).1 hs h

theorem recovervResult_valid {v : Nat} {o : OperandFile} {q : Point} (h : recovervResult v o = .ok q) :
    q.valid = true ∧ q ≠ .inf := by
  simp only [recovervResult] at h
  split at h
  · cases h
  · exact recoverPublicKey_valid o.sigS.isLt h

theorem complete_ok_valid {q : Point} (h : q.valid = true) (s : State) :
    (complete (.ok q) s).result.valid = true := by
  rw [complete_ok_result (fits_of_valid h), h]

theorem complete_ok_qinf_eq_false {q : Point} (h : q ≠ .inf) (s : State) : (complete (.ok q) s).qinf = false := by
  cases q with
  | inf => exact absurd rfl h
  | aff x y => rfl

/-- After a success the result registers hold a result of the command (10_state.md R33). -/
theorem resultFits_complete {i : Instr} {o : OperandFile} {q : Point} (h : commandResult i o = .ok q) (s : State) :
    resultFits i (complete (.ok q) s) = true := by
  have affine : q.valid = true ∧ q ≠ .inf →
      ((complete (.ok q) s).qinf == false && (complete (.ok q) s).result.valid) = true := fun ⟨hv, hn⟩ => by
    rw [complete_ok_qinf_eq_false hn, complete_ok_valid hv]; rfl
  cases i with
  | padd => exact complete_ok_valid (paddResult_valid h) s
  | pdbl => exact complete_ok_valid (pdblResult_valid h) s
  | pmul => exact complete_ok_valid (pmulResult_valid h) s
  | sqrt => rw [sqrtResult_eq_aff_zero h]; rfl
  | decomp odd => exact affine (decompResult_valid h)
  | recover recid => exact affine (recoverPublicKey_valid o.sigS.isLt h)
  | recoverv v => exact affine (recovervResult_valid h)

theorem commandResult_valid {i : Instr} {o : OperandFile} {q : Point} (hi : i ≠ .sqrt)
    (h : commandResult i o = .ok q) : q.valid = true := by
  cases i with
  | padd => exact paddResult_valid h
  | pdbl => exact pdblResult_valid h
  | pmul => exact pmulResult_valid h
  | sqrt => exact absurd rfl hi
  | decomp odd => exact (decompResult_valid h).1
  | recover recid => exact (recoverPublicKey_valid o.sigS.isLt h).1
  | recoverv v => exact (recovervResult_valid h).1

/-- A result has reduced coordinates (40_command_execution.md R104). -/
theorem commandResult_inRange {i : Instr} {o : OperandFile} {q : Point} (h : commandResult i o = .ok q) :
    ¬outOfRange q := by
  by_cases hi : i = .sqrt
  · subst hi
    rw [sqrtResult_eq_aff_zero h]
    exact not_or.mpr ⟨Nat.not_le.mpr (sqrtCandidate_lt _), Nat.not_le.mpr curveP_pos⟩
  · exact ((valid_iff q).mp (commandResult_valid hi h)).1

/-- A word that succeeds is legal. -/
theorem decode_of_wordResult_ok {w : Word32} {o : OperandFile} {q : Point} (h : wordResult w o = .ok q) :
    ∃ i, decode w = .ok i ∧ commandResult i o = .ok q := by
  simp only [wordResult] at h
  split at h
  · next i hd => exact ⟨i, hd, h⟩
  · cases h

end Sys2Proof.Proofs
end

section
/-! The invariant of the engine, kept by each operation and so by every step (10_state.md R25, R33, R37). -/

namespace Sys2Proof.Proofs
open Sys2Proof.Machine Sys2Proof.Laws

/-- Steps that only take an event off the list, release the reset input or read keep the invariant. -/
theorem inv_outside {s : State} (h : s.Inv) (es : List Event) (vals : List (String × Word32)) :
    State.Inv { s with resetHeld := false, events := es, hostVals := vals } := by
  obtain ⟨hlife, hres, hfresh, -, hout⟩ := h
  exact ⟨hlife, hres, hfresh, Bool.noConfusion, hout⟩

theorem inv_engineReset (s : State) : (engineReset s).Inv := by
  refine ⟨⟨?_, ?_, ?_, ?_, ?_⟩, ⟨?_, ?_, ?_⟩, fun _ _ => ⟨rfl, rfl, rfl, rfl, rfl, rfl⟩, fun _ => rfl, ?_⟩ <;>
    simp [State.reset, curveP_pos]

/-- Before its last step a command only counts down (40_command_execution.md R114). -/
theorem inv_progress {s : State} (h : s.Inv) (hh : s.resetHeld = false) (hr : 1 < s.remaining) :
    State.Inv { s with remaining := s.remaining - 1 } := by
  obtain ⟨⟨hbd, hed, hcode, hle, hbusy⟩, hres, hfresh, -, hout⟩ := h
  refine ⟨⟨hbd, hed, hcode, hle, ?_⟩, hres, hfresh, by simp [hh], hout⟩
  have hb : s.busy = true := hbusy.mpr (by omega)
  simp [hb, hr]

/-- While a command is in flight no error stands in STATUS (10_state.md R25). -/
theorem lifecycleOk_busy {s : State} (h : s.lifecycleOk) (hb : s.busy = true) : s.err = false ∧ s.errcode = 0 := by
  obtain ⟨hbd, hed, hcode, -, -⟩ := h
  have he : s.err = false := Bool.eq_false_iff.mpr fun he => hbd ⟨hb, hed he⟩
  exact ⟨he, hcode.mp he⟩

theorem lifecycleOk_complete {s : State} (h : s.lifecycleOk) (hb : s.busy = true) (r : CmdResult) :
    (complete r s).lifecycleOk := by
  obtain ⟨he, hc⟩ := lifecycleOk_busy h hb
  cases r with
  | ok q => simp [State.lifecycleOk, he, hc]
  | error c => cases c <;> simp [State.lifecycleOk, ErrorCode.code]

theorem resultOk_complete {s : State} (h : s.resultOk) {r : CmdResult} (hr : ∀ q, r = .ok q → ¬outOfRange q) :
    (complete r s).resultOk := by
  cases r with
  | error c => exact h
  | ok q =>
    have hq := hr q rfl
    cases q with
    | inf => simp [State.resultOk, curveP_pos]
    | aff x y =>
      simp only [outOfRange, not_or, not_le] at hq
      obtain ⟨hx, hy⟩ := hq
      exact ⟨(Nat.mod_le _ _).trans_lt hx, (Nat.mod_le _ _).trans_lt hy, Bool.noConfusion⟩

theorem outcomeOk_complete (s : State) : (complete (wordResult s.cmd s.ops) s).outcomeOk := by
  intro _ herr
  cases hr : wordResult s.cmd s.ops with
  | error c => rw [hr] at herr; cases herr
  | ok q =>
    obtain ⟨i, hd, hi⟩ := decode_of_wordResult_ok hr
    simp only [State.outcomeFits, complete_cmd, hd, resultFits_complete hi]

/-- The completion of the command in flight keeps the invariant (40_command_execution.md R115). -/
theorem inv_complete {s : State} (h : s.Inv) (hh : s.resetHeld = false) (hb : s.busy = true) :
    (complete (wordResult s.cmd s.ops) s).Inv := by
  obtain ⟨hlife, hres, -, -, -⟩ := h
  refine ⟨lifecycleOk_complete hlife hb _, resultOk_complete hres fun q hq => ?_, by simp [State.freshOk],
    by simp [State.heldOk, hh], outcomeOk_complete s⟩
  obtain ⟨i, -, hi⟩ := decode_of_wordResult_ok hq
  exact commandResult_inRange hi

theorem inv_accept {s : State} (h : s.Inv) (hh : s.resetHeld = false) (w : Word32) : (accept w s).Inv := by
  obtain ⟨-, hres, -, -, -⟩ := h
  exact ⟨by simp [State.lifecycleOk, Config.latency], hres, Bool.noConfusion, by simp [State.heldOk, hh],
    Bool.noConfusion⟩

/-- A write to the window keeps the invariant (20_memory.md R56 to R58). -/
theorem inv_busWrite {s : State} (h : s.Inv) (hh : s.resetHeld = false) (off : Nat) (v : Word32) :
    (busWrite off v s).Inv := by
  obtain ⟨hlife, hres, hfresh, -, hout⟩ := id h
  have noHold {t : State} (ht : t.resetHeld = s.resetHeld) : t.heldOk := by simp [State.heldOk, ht, hh]
  rcases busWrite_cases off v s with e | ⟨-, e⟩ | ⟨hb, e⟩ | e | e | e | ⟨-, o, e⟩ <;> rw [e]
  · exact h
  · exact inv_accept h hh v
  · exact ⟨hlife, hres, by simp [State.freshOk, hb], noHold rfl, hout⟩
  · exact ⟨hlife, hres, fun hb hd => by simp [hfresh hb hd], noHold rfl, hout⟩
  · exact ⟨hlife, hres, hfresh, noHold rfl, hout⟩
  · exact ⟨hlife, hres, fun hb hd => by simp [hfresh hb hd], noHold rfl, hout⟩
  · exact ⟨hlife, hres, hfresh, noHold rfl, hout⟩

/-- Settles O39: each case of a step is an operation that keeps the invariant. -/
theorem stepKeepsInvariant : Obligations.StepKeepsInvariant := by
  intro s t h hstep
  have taken (hh : s.resetHeld = false) (es : List Event) : State.Inv { s with events := es } := by
    simpa [← hh] using inv_outside h es s.hostVals
  rcases step_cases hstep with ⟨-, es, rfl⟩ | ⟨es, -, rfl⟩ | ⟨hh, es, rfl⟩ | ⟨hh, -, hr, es, rfl⟩ |
    ⟨hh, hb, -, es, rfl⟩ | ⟨hh, es, addr, off, v, -, -, -, rfl⟩ | ⟨hh, es, vals, rfl⟩
  · exact inv_outside h es s.hostVals
  · exact inv_engineReset _
  · exact taken hh es
  · exact inv_progress (taken hh es) hh hr
  · exact inv_complete (taken hh es) hh hb
  · exact inv_busWrite (taken hh es) hh off v
  · simpa [← hh] using inv_outside h es vals

end Sys2Proof.Proofs
end

section
/-! What the writes to the register window leave unchanged, and where a write has its effect (20_memory.md R56 to R58). -/

namespace Sys2Proof.Proofs
open Sys2Proof.Machine Sys2Proof.Laws

theorem ctrlReg_offset_lt (r : CtrlReg) : r.offset < 0x01C := by cases r <;> decide

/-- The 256-bit registers stand in two ranges of the window (10_state.md R21). -/
theorem wideReg_offset_range (r : WideReg) :
    (0x100 ≤ r.offset ∧ r.offset + 32 ≤ 0x240) ∨ (0x300 ≤ r.offset ∧ r.offset + 32 ≤ 0x380) := by
  cases r <;> decide

/-- The operand registers stand at 0x100 to 0x1FF (10_state.md R21). -/
theorem isOperand_iff_offset (r : WideReg) :
    r.isOperand = true ↔ 0x100 ≤ r.offset ∧ r.offset + 32 ≤ 0x200 := by
  cases r <;> decide

/-- The offsets that no register takes up (10_state.md R34). -/
theorem windowWord_eq_reserved {off : Nat}
    (h : (0x01C ≤ off ∧ off < 0x100) ∨ (0x240 ≤ off ∧ off < 0x300) ∨ 0x380 ≤ off) : windowWord off = .reserved := by
  rcases hw : windowWord off with r | ⟨r, j⟩ | _
  · have := offset_of_windowWord_ctrl hw
    have := ctrlReg_offset_lt r
    omega
  · obtain ⟨hlo, hhi, -⟩ := offset_of_windowWord_wide hw
    have := wideReg_offset_range r
    omega
  · rfl

theorem busRead_of_reserved {off : Nat} (h : windowWord off = .reserved) (s : State) : busRead s off = 0 := by
  simp [busRead, h]

theorem busWrite_of_reserved {off : Nat} (h : windowWord off = .reserved) (v : Word32) (s : State) :
    busWrite off v s = s := by
  simp [busWrite, h]

/-- From 0x200 up no offset is writable (20_memory.md R57). -/
theorem busWrite_of_ge {off : Nat} (h : 0x200 ≤ off) (v : Word32) (s : State) : busWrite off v s = s := by
  rcases hw : windowWord off with r | ⟨r, j⟩ | _
  · have := offset_of_windowWord_ctrl hw
    have := ctrlReg_offset_lt r
    omega
  · obtain ⟨-, hhi, -⟩ := offset_of_windowWord_wide hw
    have hr : r.isOperand = false := by
      rw [Bool.eq_false_iff, Ne, isOperand_iff_offset]
      omega
    simp [busWrite, hw, writeWide, hr]
  · exact busWrite_of_reserved hw v s

/-- The offsets a command in flight keeps from being written: CMD, OPFLAGS and the operand registers
(20_memory.md R58). -/
theorem busWrite_eq_dropWrite {off : Nat} (h : off = 0x008 ∨ off = 0x018 ∨ (0x100 ≤ off ∧ off < 0x200)) (v : Word32)
    {s : State} (hb : s.busy = true) : busWrite off v s = dropWrite s := by
  rcases h with rfl | rfl | ⟨hlo, hhi⟩
  · simp [busWrite_cmd, hb]
  · simp [busWrite_opflags, hb]
  · obtain ⟨r, j, hr, -, hw⟩ := windowWord_operand off hlo hhi
    simp [busWrite, hw, writeWide, hr, hb]

/-- A write by its offset: where it is accepted, dropped or clears WERR, and otherwise it keeps CMD and WERR. -/
theorem busWrite_cases_offset (off : Nat) (v : Word32) (s : State) :
    (off = 0x008 ∧ s.busy = false ∧ busWrite off v s = accept v s) ∨
    ((off = 0x008 ∨ off = 0x018 ∨ (0x100 ≤ off ∧ off < 0x200)) ∧ s.busy = true ∧ busWrite off v s = dropWrite s) ∨
    (off = 0x00C ∧ v.getLsbD 16 = true ∧ busWrite off v s = { s with werr := false }) ∨
    ((busWrite off v s).cmd = s.cmd ∧ (busWrite off v s).werr = s.werr) := by
  rcases hw : windowWord off with r | ⟨r, j⟩ | _
  · obtain rfl := offset_of_windowWord_ctrl hw
    simp only [busWrite_ctrl]
    cases r with
    | cmd => cases hb : s.busy <;> simp [writeCtrl, CtrlReg.offset, hb]
    | status =>
      simp only [writeCtrl]
      split
      · next hv => exact .inr (.inr (.inl ⟨rfl, hv, rfl⟩))
      · exact .inr (.inr (.inr ⟨rfl, rfl⟩))
    | opflags => cases hb : s.busy <;> simp [writeCtrl, CtrlReg.offset, hb]
    | irqpend =>
      refine .inr (.inr (.inr ?_))
      simp only [writeCtrl]
      split <;> exact ⟨rfl, rfl⟩
    | id | version | irqen => exact .inr (.inr (.inr ⟨rfl, rfl⟩))
  · obtain ⟨hlo, hhi, -⟩ := offset_of_windowWord_wide hw
    cases hr : r.isOperand
    · simp [busWrite, hw, writeWide, hr]
    · have := (isOperand_iff_offset r).mp hr
      cases hb : s.busy
      · simp [busWrite, hw, writeWide, hr, hb]
      · have hrange : 0x100 ≤ off ∧ off < 0x200 := by omega
        simp [busWrite, hw, writeWide, hr, hb, hrange]
  · simp [busWrite_of_reserved hw]

end Sys2Proof.Proofs
end

section
/-! What a step can change of the result registers, of CMD and of WERR (10_state.md R24, R26, R33). -/

namespace Sys2Proof.Proofs
open Sys2Proof.Machine Sys2Proof.Laws

/-- No write reaches the result registers (10_state.md R33). -/
theorem busWrite_keeps_result (off : Nat) (v : Word32) (s : State) :
    (busWrite off v s).qx = s.qx ∧ (busWrite off v s).qy = s.qy ∧ (busWrite off v s).qinf = s.qinf := by
  rcases busWrite_cases off v s with e | ⟨-, e⟩ | ⟨-, e⟩ | e | e | e | ⟨-, o, e⟩ <;> rw [e] <;>
    exact ⟨rfl, rfl, rfl⟩

/-- Settles O16: of the cases of a step only a success and the reset touch the result registers. -/
theorem resultChangesOnlyOnSuccess : Obligations.ResultChangesOnlyOnSuccess := by
  intro s t hstep hchange
  have unchanged (h : t.qx = s.qx ∧ t.qy = s.qy ∧ t.qinf = s.qinf) : False := by
    obtain ⟨hx, hy, hinf⟩ := h
    rcases hchange with h | h | h
    · exact h hx
    · exact h hy
    · exact h hinf
  rcases step_cases hstep with ⟨-, es, rfl⟩ | ⟨es, he, rfl⟩ | ⟨-, es, rfl⟩ | ⟨-, -, -, es, rfl⟩ |
    ⟨-, hb, hr, es, rfl⟩ | ⟨-, es, addr, off, v, -, -, -, rfl⟩ | ⟨-, es, vals, rfl⟩
  · exact (unchanged ⟨rfl, rfl, rfl⟩).elim
  · exact .inr ⟨by rw [he]; rfl, rfl, rfl, rfl⟩
  · exact (unchanged ⟨rfl, rfl, rfl⟩).elim
  · exact (unchanged ⟨rfl, rfl, rfl⟩).elim
  · cases hres : wordResult s.cmd s.ops with
    | error c => rw [hres] at unchanged; exact (unchanged ⟨rfl, rfl, rfl⟩).elim
    | ok q =>
      refine .inl ⟨hb, hr, complete_busy _ _, complete_done _ _, complete_ok_err _ _, complete_ok_errcode _ _,
        fun hlife => ?_⟩
      rw [complete_ok_err, complete_ok_errcode]
      exact lifecycleOk_busy hlife hb
  · exact (unchanged (busWrite_keeps_result off v _)).elim
  · exact (unchanged ⟨rfl, rfl, rfl⟩).elim

/-- A step that changes CMD or WERR is a write that is accepted, dropped or clears WERR, or the reset. -/
theorem step_cases_cmd_werr {s t : State} (h : step s = .next t) :
    (t.cmd = s.cmd ∧ t.werr = s.werr) ∨
    (s.events.head? = some .resetAssert ∧ t.cmd = 0 ∧ t.werr = false) ∨
    ∃ addr off v, s.events.head? = some (.host (.wr addr .word v)) ∧ windowOffset addr = some off ∧
      ((off = 0x008 ∧ s.busy = false ∧ t.busy = true ∧ t.cmd = v ∧ t.werr = s.werr) ∨
      ((off = 0x008 ∨ off = 0x018 ∨ (0x100 ≤ off ∧ off < 0x200)) ∧ s.busy = true ∧ t.cmd = s.cmd ∧ t.werr = true) ∨
      (off = 0x00C ∧ v.getLsbD 16 = true ∧ t.cmd = s.cmd ∧ t.werr = false)) := by
  rcases step_cases h with ⟨-, es, rfl⟩ | ⟨es, he, rfl⟩ | ⟨-, es, rfl⟩ | ⟨-, -, -, es, rfl⟩ |
    ⟨-, hb, hr, es, rfl⟩ | ⟨-, es, addr, off, v, he, ho, -, rfl⟩ | ⟨-, es, vals, rfl⟩
  · exact .inl ⟨rfl, rfl⟩
  · exact .inr (.inl ⟨by rw [he]; rfl, rfl, rfl⟩)
  · exact .inl ⟨rfl, rfl⟩
  · exact .inl ⟨rfl, rfl⟩
  · exact .inl ⟨complete_cmd _ _, complete_werr _ _⟩
  · have written : s.events.head? = some (.host (.wr addr .word v)) := by rw [he]; rfl
    rcases busWrite_cases_offset off v { s with events := es } with ⟨hoff, hb, e⟩ | ⟨hoff, hb, e⟩ | ⟨hoff, hv, e⟩ | e
    · exact .inr (.inr ⟨addr, off, v, written, ho, .inl ⟨hoff, hb, by simp [e], by simp [e], by simp [e]⟩⟩)
    · exact .inr (.inr ⟨addr, off, v, written, ho, .inr (.inl ⟨hoff, hb, by simp [e], by simp [e]⟩)⟩)
    · exact .inr (.inr ⟨addr, off, v, written, ho, .inr (.inr ⟨hoff, hv, by simp [e], by simp [e]⟩)⟩)
    · exact .inl e
  · exact .inl ⟨rfl, rfl⟩

/-- Settles O41: an accept puts the word in CMD, a dropped write sets WERR alone, and no other step but reset changes
CMD. -/
theorem cmdHoldsTheLastAcceptedWord : Obligations.CmdHoldsTheLastAcceptedWord := by
  refine ⟨busRead_cmd _, fun s w hb => ?_, fun s w hb => ?_, fun s t hstep hcmd => ?_⟩
  · simp [busWrite_cmd, busRead_cmd, hb]
  · simp [busWrite_cmd, hb, dropWrite]
  · rcases step_cases_cmd_werr hstep with ⟨hc, -⟩ | ⟨he, hc, -⟩ |
      ⟨addr, off, v, he, ho, ⟨rfl, hb, hb', hc, -⟩ | ⟨-, -, hc, -⟩ | ⟨-, -, hc, -⟩⟩
    · exact absurd hc hcmd
    · exact .inr ⟨he, hc⟩
    · exact .inl ⟨hb, hb', addr, hc ▸ he, ho⟩
    · exact absurd hc hcmd
    · exact absurd hc hcmd

theorem busWrite_status_eq (v : Word32) (s : State) :
    busWrite 0x00C v s = { s with werr := s.werr && !v.getLsbD 16 } := by
  rw [busWrite_status]
  cases v.getLsbD 16 <;> simp

theorem complete_withWerr (r : CmdResult) (s : State) (b : Bool) :
    complete r { s with werr := b } = { complete r s with werr := b } := by
  cases r with
  | error c => rfl
  | ok q => cases q <;> rfl

/-- Settles O43: a step that clears or sets WERR is a write to STATUS, the reset or a dropped write, and no completion
depends on WERR. -/
theorem werrIsSticky : Obligations.WerrIsSticky := by
  refine ⟨fun s off v hb hoff => ?_, fun s v => ?_, fun s => rfl, fun s t hstep hset hclear => ?_,
    fun s t hstep hclear hset => ?_, fun i s t b hexec => ?_⟩
  · rw [busWrite_eq_dropWrite (hoff.imp_right (.imp_right And.right)) v hb, dropWrite_werr]
  · rw [busWrite_status_eq]
  · rcases step_cases_cmd_werr hstep with ⟨-, hw⟩ | ⟨he, -, -⟩ |
      ⟨addr, off, v, he, ho, ⟨-, -, -, -, hw⟩ | ⟨-, -, -, hw⟩ | ⟨rfl, hv, -, -⟩⟩
    · simp [hw, hset] at hclear
    · exact .inr he
    · simp [hw, hset] at hclear
    · simp [hw] at hclear
    · exact .inl ⟨addr, v, he, ho, hv⟩
  · rcases step_cases_cmd_werr hstep with ⟨-, hw⟩ | ⟨-, -, hw⟩ |
      ⟨addr, off, v, he, ho, ⟨-, -, -, -, hw⟩ | ⟨hoff, hb, -, -⟩ | ⟨-, -, -, hw⟩⟩
    · simp [hw, hclear] at hset
    · simp [hw] at hset
    · simp [hw, hclear] at hset
    · exact ⟨hb, addr, v, off, he, ho, hoff⟩
    · simp [hw] at hset
  · rw [exec_eq] at hexec ⊢
    cases hexec
    exact ⟨complete_werr _ _, by rw [complete_withWerr]⟩

end Sys2Proof.Proofs
end

section
/-! What the 32-bit registers and the constants read, and the writes to them (10_state.md R22 to R29, R34, R35). -/

namespace Sys2Proof.Proofs
open Sys2Proof.Machine Sys2Proof.Laws

/-! ## The constants -/

/-- Word j of a constant (20_memory.md R53). -/
theorem wordOf_ofNat (n : Nat) {j : Nat} (hj : j < 8) :
    wordOf (BitVec.ofNat 256 n) j = BitVec.ofNat 32 (n / 2 ^ (224 - 32 * j)) := by
  apply BitVec.eq_of_getLsbD_eq
  intro i hi
  have hlt : 224 - 32 * j + i < 256 := by omega
  rw [getLsbD_wordOf, BitVec.getLsbD_ofNat, BitVec.getLsbD_ofNat, Nat.testBit_div_two_pow, Nat.add_comm i,
    decide_eq_true hlt, Bool.true_and]

/-- Settles O40: the constants are the values of their registers, and no write reaches them. -/
theorem constantsAreHardwired : Obligations.ConstantsAreHardwired := by
  intro s v
  have reads (r : WideReg) (n : Nat) (hr : s.wide r = BitVec.ofNat 256 n) (j : Nat) (hj : j < 8) :
      busRead s (r.offset + 4 * j) = BitVec.ofNat 32 (n / 2 ^ (224 - 32 * j)) := by
    rw [busRead_wide s r j hj, hr, wordOf_ofNat n hj]
  exact ⟨busRead_ctrl s .id, busRead_ctrl s .version, busWrite_ctrl .id v s, busWrite_ctrl .version v s,
    fun j hj => ⟨reads .constP curveP rfl j hj, reads .constN curveN rfl j hj, reads .constGx curveGx rfl j hj,
      reads .constGy curveGy rfl j hj⟩,
    fun off hlo _ => busWrite_of_ge (by omega) v s⟩

/-! ## STATUS -/

/-- The bits of STATUS that belong to no flag (10_state.md R25, R34). -/
def statusReserved (i : Nat) : Prop := (4 ≤ i ∧ i < 8) ∨ (12 ≤ i ∧ i < 16) ∨ 17 ≤ i

theorem getLsbD_statusWord_reserved (s : State) {i : Nat} (h : statusReserved i) :
    s.statusWord.getLsbD i = false := by
  simp only [statusReserved] at h
  rw [Bool.eq_false_iff]
  intro ht
  simp only [State.statusWord, BitVec.getLsbD_append, BitVec.getLsbD_zero] at ht
  split_ifs at ht <;> omega

theorem extractLsb'_statusWord_reserved (s : State) {start len : Nat}
    (h : ∀ i < len, statusReserved (start + i)) : s.statusWord.extractLsb' start len = 0 := by
  apply BitVec.eq_of_getLsbD_eq
  intro i hi
  rw [BitVec.getLsbD_extractLsb', getLsbD_statusWord_reserved s (h i hi)]
  simp

theorem statusWord_and_reserved (s : State) : s.statusWord &&& 0xFFFEF0F0#32 = 0 := by
  have mask : ∀ i < 32, (0xFFFEF0F0#32).getLsbD i = true → statusReserved i := by
    unfold statusReserved
    decide
  apply BitVec.eq_of_getLsbD_eq
  intro i hi
  rw [BitVec.getLsbD_and]
  cases hm : (0xFFFEF0F0#32).getLsbD i with
  | false => simp
  | true => simp [getLsbD_statusWord_reserved s (mask i hi hm)]

theorem statusWord_errcode (s : State) : s.statusWord.extractLsb' 8 4 = s.errcode := by
  apply BitVec.eq_of_getLsbD_eq
  intro i hi
  simp only [BitVec.getLsbD_extractLsb', hi, decide_true, Bool.true_and, State.statusWord, BitVec.getLsbD_append]
  rw [if_neg (by omega), if_neg (by omega), if_neg (by omega), if_neg (by omega), if_neg (by omega),
    if_pos (by omega)]
  exact congrArg _ (by omega)

theorem statusWord_flags (s : State) :
    s.statusWord.getLsbD 0 = s.busy ∧ s.statusWord.getLsbD 1 = s.done ∧ s.statusWord.getLsbD 2 = s.err ∧
      s.statusWord.getLsbD 3 = s.qinf ∧ s.statusWord.getLsbD 16 = s.werr := by
  simp only [State.statusWord, BitVec.getLsbD_append, BitVec.getLsbD_ofBool]
  simp

/-- Settles O42: the flags, ERRCODE, the reserved fields between them, and the write rule of WERR. -/
theorem statusLayout : Obligations.StatusLayout := by
  intro s v
  rw [busRead_status]
  obtain ⟨hbusy, hdone, herr, hqinf, hwerr⟩ := statusWord_flags s
  have reserved (start len : Nat) (h : ∀ i < len, statusReserved (start + i)) :=
    extractLsb'_statusWord_reserved s h
  refine ⟨hbusy, hdone, herr, hqinf, reserved 4 4 ?_, statusWord_errcode s, reserved 12 4 ?_, hwerr,
    reserved 17 15 ?_, busWrite_status_eq v s⟩ <;>
  · intro i hi
    unfold statusReserved
    omega

/-! ## IRQEN, IRQPEND and OPFLAGS -/

theorem irqenWord_eq (s : State) : s.irqenWord = if s.doneie then 1 else 0 := by
  cases h : s.doneie <;> simp [State.irqenWord, h]

theorem irqpendWord_eq (s : State) : s.irqpendWord = if s.doneip then 1 else 0 := by
  cases h : s.doneip <;> simp [State.irqpendWord, h]

theorem opflagsWord_eq (s : State) :
    s.opflagsWord = (if s.ops.ainf then 1 else 0) ||| (if s.ops.binf then 2 else 0) := by
  cases ha : s.ops.ainf <;> cases hb : s.ops.binf <;> simp [State.opflagsWord, ha, hb]

/-- Settles O44: a write sets DONEIE without a look at BUSY, and DONEIE is what is read. -/
theorem interruptEnableRegister : Obligations.InterruptEnableRegister :=
  ⟨rfl, fun s v => ⟨busWrite_irqen v s, (busRead_irqen s).trans (irqenWord_eq s)⟩⟩

theorem busWrite_irqpend_eq (v : Word32) (s : State) :
    busWrite 0x014 v s = { s with doneip := s.doneip && !v.getLsbD 0 } := by
  rw [busWrite_irqpend]
  cases v.getLsbD 0 <;> simp

theorem busWrite_cmd_doneip (v : Word32) (s : State) : (busWrite 0x008 v s).doneip = s.doneip := by
  rw [busWrite_cmd]
  split <;> rfl

/-- The step from a state whose next event is the completion (40_command_execution.md R115). -/
theorem step_eq_complete {s : State} {rest : List Event} (h : s.completesNext rest) :
    step s = .next (complete (wordResult s.cmd s.ops) { s with events := rest }) := by
  obtain ⟨hh, hb, hr, hn⟩ := h
  rw [step_eq_engineStep hh hn]
  simp [engineStep, hb, hr, runCommand_eq]

/-- Settles O45: a completion sets DONEIP, a write to IRQPEND clears it by a 1, and a write to CMD keeps it. -/
theorem interruptPendingRegister : Obligations.InterruptPendingRegister := by
  refine ⟨rfl, fun s v => ⟨busWrite_irqpend_eq v s, (busRead_irqpend s).trans (irqpendWord_eq s),
    busWrite_cmd_doneip v s⟩, fun s t rest h hstep => ?_⟩
  rw [step_eq_complete h] at hstep
  cases hstep
  exact complete_doneip _ _

/-- The two flag bits of a word written to OPFLAGS (10_state.md R29). -/
theorem flagBits_eq_and_three (v : Word32) :
    0#30 ++ BitVec.ofBool (v.getLsbD 1) ++ BitVec.ofBool (v.getLsbD 0) = v &&& 3 := by
  have mask : ∀ i < 32, 2 ≤ i → (3#32).getLsbD i = false := by decide
  apply BitVec.eq_of_getLsbD_eq
  intro i hi
  simp only [BitVec.getLsbD_append, BitVec.getLsbD_ofBool, BitVec.getLsbD_zero, BitVec.getLsbD_and]
  rcases i with _ | _ | i
  · simp
  · simp
  · simp [mask _ hi]

/-- Settles O46: while idle a write sets both flags, which are the two low bits read back. -/
theorem operandFlagsRegister : Obligations.OperandFlagsRegister := by
  refine ⟨rfl, rfl, fun s v => ⟨fun hb => ?_, (busRead_opflags s).trans (opflagsWord_eq s)⟩⟩
  have hw : busWrite 0x018 v s = { s with ops := { s.ops with ainf := v.getLsbD 0, binf := v.getLsbD 1 } } := by
    simp [busWrite_opflags, hb]
  exact ⟨hw, by rw [hw, busRead_opflags]; exact flagBits_eq_and_three v⟩

/-! ## Reserved offsets and bits -/

/-- Settles O47: no register stands at a reserved offset, and neither a read nor a write uses a reserved bit. -/
theorem reservedReadsZero : Obligations.ReservedReadsZero := by
  intro s v
  refine ⟨fun off h => ?_, ?_, ?_, ?_, ?_, ?_, ?_, ?_, ?_⟩
  · have hw : windowWord off = .reserved := windowWord_eq_reserved (by omega)
    exact ⟨busRead_of_reserved hw s, busWrite_of_reserved hw v s⟩
  · rw [busRead_status, statusWord_and_reserved]
  · rw [busRead_irqen, irqenWord_eq]; split <;> rfl
  · rw [busRead_irqpend, irqpendWord_eq]; split <;> rfl
  · rw [busRead_opflags, opflagsWord_eq]; split <;> split <;> rfl
  · simp [busWrite_status]
  · simp [busWrite_irqen]
  · simp [busWrite_irqpend]
  · simp [busWrite_opflags]

end Sys2Proof.Proofs
end

section
/-! Where the words of the 256-bit registers stand, and what a write to one of them changes of every other read
(20_memory.md R53, R55, R56). -/

namespace Sys2Proof.Proofs
open Sys2Proof.Machine Sys2Proof.Laws

/-! ## The words of the 256-bit registers -/

/-- Every 256-bit register begins at a word (10_state.md R21). -/
theorem wideReg_offset_mod_four (r : WideReg) : r.offset % 4 = 0 := by cases r <;> rfl

/-- What stands at an aligned offset in the 32 bytes of a 256-bit register (20_memory.md R55). -/
theorem windowWord_eq_wide {r : WideReg} {off : Nat} (hmod : off % 4 = 0) (hlo : r.offset ≤ off)
    (hhi : off < r.offset + 32) : windowWord off = .wide r ((off - r.offset) / 4) := by
  have hoff : off = r.offset + 4 * ((off - r.offset) / 4) := by
    have := wideReg_offset_mod_four r
    omega
  calc windowWord off = windowWord (r.offset + 4 * ((off - r.offset) / 4)) := congrArg _ hoff
    _ = .wide r ((off - r.offset) / 4) := windowWord_wide r _ (by omega)

/-- A word of a 256-bit register stands at one aligned offset only. -/
theorem aligned_offset_of_windowWord_wide {off : Nat} {r : WideReg} {j : Nat} (hmod : off % 4 = 0)
    (hw : windowWord off = .wide r j) : off = r.offset + 4 * j ∧ j < 8 := by
  obtain ⟨hlo, hhi, rfl⟩ := offset_of_windowWord_wide hw
  have := wideReg_offset_mod_four r
  omega

/-- Settles O50: the eight words are the value cut from its most significant end. -/
theorem wideRegisterWordOrder : Obligations.WideRegisterWordOrder := by
  intro s r
  have word := busRead_wide s r
  refine ⟨?_, fun j hj i hi => ?_⟩
  · rw [word 0 (by decide), word 1 (by decide), word 2 (by decide), word 3 (by decide), word 4 (by decide),
      word 5 (by decide), word 6 (by decide), word 7 (by decide)]
    exact words_append _
  · rw [word j hj, getLsbD_wordOf, decide_eq_true hi, Bool.true_and]

/-! ## A write to an operand word while idle -/

theorem setOperand_keeps_flags (o : OperandFile) (r : WideReg) (v : Word256) :
    (setOperand o r v).ainf = o.ainf ∧ (setOperand o r v).binf = o.binf := by
  cases r <;> exact ⟨rfl, rfl⟩

/-- Of the operand file only the flags are seen in a 32-bit register (10_state.md R29). -/
theorem ctrl_withOps {s : State} {o : OperandFile} (ha : o.ainf = s.ops.ainf) (hb : o.binf = s.ops.binf)
    (r : CtrlReg) : State.ctrl { s with ops := o } r = s.ctrl r := by
  cases r with
  | opflags => simp only [State.ctrl, State.opflagsWord, ha, hb]
  | id | version | cmd | status | irqen | irqpend => rfl

/-- An idle write to a word of an operand register (20_memory.md R56). -/
theorem busWrite_operand_idle {off : Nat} {r : WideReg} {j : Nat} (hw : windowWord off = .wide r j)
    (hr : r.isOperand = true) (v : Word32) {s : State} (hb : s.busy = false) :
    busWrite off v s = { s with ops := setOperand s.ops r (withWord (s.wide r) j v) } := by
  simp [busWrite, hw, writeWide, hr, hb]

/-- Setting an operand register shows in no word but those of that register. -/
theorem busRead_setOperand_other {s : State} {r : WideReg} {off : Nat} (h : ∀ j, windowWord off ≠ .wide r j)
    (x : Word256) : busRead { s with ops := setOperand s.ops r x } off = busRead s off := by
  obtain ⟨ha, hb⟩ := setOperand_keeps_flags s.ops r x
  unfold busRead
  split
  · exact ctrl_withOps ha hb _
  · next r' j hw =>
    have hne : r' ≠ r := by
      rintro rfl
      exact h j hw
    rw [wide_setOperand_other s r r' hne]
  · rfl

/-- Settles O52: the write reaches one word of one register; a word read elsewhere is of another register, or another
word of the same one. -/
theorem idleWriteReplacesOneWord : Obligations.IdleWriteReplacesOneWord := by
  intro s off v hbusy hmod hlo hhi
  obtain ⟨r, j, hr, hj, hw⟩ := windowWord_operand off hlo hhi
  obtain ⟨ha, hb⟩ := setOperand_keeps_flags s.ops r (withWord (s.wide r) j v)
  have hwrite := busWrite_operand_idle hw hr v hbusy
  refine ⟨_, hwrite, ?_, ha, hb, fun off' hmod' hne => ?_⟩
  · simp only [hwrite, busRead, hw, wide_setOperand s r hr, wordOf_withWord_self]
  rw [hwrite]
  by_cases h : ∃ i, windowWord off' = .wide r i
  · obtain ⟨i, hw'⟩ := h
    obtain ⟨hoff, -⟩ := aligned_offset_of_windowWord_wide hmod hw
    obtain ⟨hoff', hi⟩ := aligned_offset_of_windowWord_wide hmod' hw'
    have hij : i ≠ j := by omega
    simp only [busRead, hw', wide_setOperand s r hr, wordOf_withWord_other _ _ _ _ hj hi hij]
  · exact busRead_setOperand_other (not_exists.mp h) _

end Sys2Proof.Proofs
end

section
/-! What the host's accesses do: bus errors, the bounds of the window, reads and polls, and the writes that are ignored
or dropped (20_memory.md R50 to R59). -/

namespace Sys2Proof.Proofs
open Sys2Proof.Machine Sys2Proof.Laws

/-! ## While a command is in flight -/

/-- A write while BUSY = 1 changes neither an operand nor CMD (20_memory.md R58). -/
theorem busWrite_busy_keeps_operands (off : Nat) (v : Word32) {s : State} (hb : s.busy = true) :
    (busWrite off v s).ops = s.ops ∧ (busWrite off v s).cmd = s.cmd := by
  rcases busWrite_cases off v s with e | ⟨hb', -⟩ | ⟨-, e⟩ | e | e | e | ⟨hb', -⟩
  case inr.inl | inr.inr.inr.inr.inr.inr => simp [hb] at hb'
  all_goals rw [e]; exact ⟨rfl, rfl⟩

/-- Settles O15: of the cases of a step only the reset and an idle write touch the operands or CMD. -/
theorem operandsFrozenWhileBusy : Obligations.OperandsFrozenWhileBusy := by
  intro s t hbusy hreset hstep
  rcases step_cases hstep with ⟨-, es, rfl⟩ | ⟨es, he, -⟩ | ⟨-, es, rfl⟩ | ⟨-, -, -, es, rfl⟩ |
    ⟨-, -, -, es, rfl⟩ | ⟨-, es, addr, off, v, -, -, -, rfl⟩ | ⟨-, es, vals, rfl⟩
  · exact ⟨rfl, rfl⟩
  · exact absurd (congrArg List.head? he) hreset
  · exact ⟨rfl, rfl⟩
  · exact ⟨rfl, rfl⟩
  · exact ⟨complete_ops _ _, complete_cmd _ _⟩
  · exact busWrite_busy_keeps_operands off v hbusy
  · exact ⟨rfl, rfl⟩

/-- Settles O54: CMD, OPFLAGS and the operand words are dropped; STATUS, IRQEN and IRQPEND are written as if idle. -/
theorem busyWritesAreDropped : Obligations.BusyWritesAreDropped := by
  intro s off v hb
  refine ⟨fun hoff => ?_, ?_, ?_, ?_⟩
  · exact busWrite_eq_dropWrite (hoff.imp_right (.imp_right And.right)) v hb
  · rintro rfl; exact busWrite_status_eq v s
  · rintro rfl; exact busWrite_irqen v s
  · rintro rfl; exact busWrite_irqpend_eq v s

/-- Settles O53: ID and VERSION ignore a write, the reserved words hold no register, and none from 0x200 up is
writable. -/
theorem readOnlyWritesIgnored : Obligations.ReadOnlyWritesIgnored := by
  rintro s off v (rfl | rfl | h | h)
  · exact busWrite_ctrl .id v s
  · exact busWrite_ctrl .version v s
  · exact busWrite_of_reserved (windowWord_eq_reserved (.inl h)) v s
  · exact busWrite_of_ge h v s

/-! ## Accesses in and outside the window -/

/-- A 32-bit access at a multiple of 4 in the window acts at its offset (20_memory.md R50). -/
theorem busAccess_aligned {off : Nat} (hlt : off < 4096) (hmod : off % 4 = 0) (act : Nat → State) :
    busAccess (Config.ecrBase + off) .word act = .next (act off) := by
  rw [busAccess_inside off .word act hlt, if_pos ⟨rfl, hmod⟩]

/-- Any other access in the window is a bus error (20_memory.md R51). -/
theorem busAccess_bad {off : Nat} {size : AccessSize} (hlt : off < 4096) (h : size ≠ .word ∨ off % 4 ≠ 0)
    (act : Nat → State) : busAccess (Config.ecrBase + off) size act = .fault .busError := by
  rw [busAccess_inside off size act hlt, if_neg (not_and_or.mpr h)]

/-- Settles O48: a write, a read and a poll are each one bus access, which is bad. -/
theorem badAccessFaults : Obligations.BadAccessFaults := by
  intro s off es hh hlt
  refine ⟨fun size v he hbad => ?_, fun size name he hbad => ?_, fun mask val he hbad => ?_⟩ <;>
    rw [step_eq_hostAccess hh he]
  · exact busAccess_bad hlt hbad _
  · exact busAccess_bad hlt hbad _
  · exact busAccess_bad hlt (.inr hbad) _

/-- Settles O49: a write, a read and a poll are each one bus access, refused outside the window. -/
theorem windowBounds : Obligations.WindowBounds := by
  refine ⟨fun s addr es hh hout => ?_, fun s off v es hh hlt hmod he => ?_⟩
  · refine ⟨fun size v he => ?_, fun size name he => ?_, fun mask val he => ?_⟩ <;>
      rw [step_eq_hostAccess hh he] <;> exact busAccess_outside addr _ _ hout
  · rw [step_eq_hostAccess hh he]
    exact busAccess_aligned hlt hmod _

/-! ## Reads and polls -/

/-- The step of a read (20_memory.md R55). -/
theorem step_rd {s : State} {off : Nat} {name : String} {es : List Event} (hh : s.resetHeld = false)
    (hlt : off < 4096) (hmod : off % 4 = 0)
    (he : s.events = .host (.rd (Config.ecrBase + off) .word name) :: es) :
    step s = .next { s with events := es, hostVals := (name, busRead s off) :: s.hostVals } := by
  rw [step_eq_hostAccess hh he]
  exact busAccess_aligned hlt hmod _

/-- The step of a poll (30_encoding.md R78). -/
theorem step_poll {s : State} {off : Nat} {mask val : Word32} {es : List Event} (hh : s.resetHeld = false)
    (hlt : off < 4096) (hmod : off % 4 = 0)
    (he : s.events = .host (.poll (Config.ecrBase + off) mask val) :: es) :
    step s = .next (if busRead s off &&& mask = val then { s with events := es }
      else { s with events := .engine :: .host (.poll (Config.ecrBase + off) mask val) :: es }) := by
  rw [step_eq_hostAccess hh he]
  exact busAccess_aligned hlt hmod _

/-- Settles O51: a read by what stands at its offset; a read step keeps the value, and a poll step ends the poll or puts
it back behind an engine step. -/
theorem readReturnsAndChangesNothing : Obligations.ReadReturnsAndChangesNothing := by
  refine ⟨busRead_ctrl, fun s r off hmod hlo hhi => ?_, fun s off h => ?_,
    fun s off name es hh hlt hmod he => step_rd hh hlt hmod he, fun s off mask val es hh hlt hmod he => ?_⟩
  · simp only [busRead, windowWord_eq_wide hmod hlo hhi]
  · exact busRead_of_reserved (windowWord_eq_reserved (by omega)) s
  · rw [step_poll hh hlt hmod he]
    exact ⟨fun hmatch => by rw [if_pos hmatch], fun hmiss => by rw [if_neg hmiss]⟩

end Sys2Proof.Proofs
end

section
/-! The decoder and the encoder are inverse to each other (30_encoding.md R70 to R77). -/

namespace Sys2Proof.Proofs
open Sys2Proof.Machine Sys2Proof.Laws

/-! ## The word of a command -/

theorem commandWord_toNat {opc arg : Nat} (ho : opc < 16) (ha : arg < 256) :
    (commandWord opc arg).toNat = arg * 256 + opc := by
  calc (commandWord opc arg).toNat
    _ = (0#16 ++ BitVec.ofNat 8 arg ++ 0#4).toNat <<< 4 ||| (BitVec.ofNat 4 opc).toNat := BitVec.toNat_append _ _
    _ = arg <<< 4 <<< 4 ||| opc := by
      rw [BitVec.toNat_append, BitVec.toNat_append]
      simp [Nat.mod_eq_of_lt ho, Nat.mod_eq_of_lt ha]
    _ = arg * 256 + opc := by
      rw [← Nat.shiftLeft_add, ← Nat.shiftLeft_add_eq_or_of_lt (by omega), Nat.shiftLeft_eq]

/-- A word without a reserved bit is the word of its OPC and ARG (30_encoding.md R70). -/
theorem commandWord_fields {w : Word32} (hhigh : rsv1Field w = 0) (hlow : rsv0Field w = 0) :
    commandWord (opcField w) (argField w) = w := by
  rw [rsv1Field_eq] at hhigh
  rw [rsv0Field_eq] at hlow
  apply BitVec.eq_of_toNat_eq
  rw [opcField_eq, argField_eq, commandWord_toNat (Nat.mod_lt _ (by decide)) (Nat.mod_lt _ (by decide))]
  omega

/-! ## Decoding -/

theorem decode_eq_ok_iff_fields {w : Word32} {i : Instr} :
    decode w = .ok i ↔ rsv1Field w = 0 ∧ rsv0Field w = 0 ∧ decodeFields (opcField w) (argField w) = .ok i := by
  by_cases hhigh : rsv1Field w = 0 <;> by_cases hlow : rsv0Field w = 0 <;> simp [decode, hhigh, hlow]

theorem decode_commandWord {opc arg : Nat} (ho : opc < 16) (ha : arg < 256) :
    decode (commandWord opc arg) = decodeFields opc arg := by
  have hhigh : rsv1Field (commandWord opc arg) = 0 := by rw [rsv1Field_eq, commandWord_toNat ho ha]; omega
  have hlow : rsv0Field (commandWord opc arg) = 0 := by rw [rsv0Field_eq, commandWord_toNat ho ha]; omega
  have hopc : opcField (commandWord opc arg) = opc := by rw [opcField_eq, commandWord_toNat ho ha]; omega
  have harg : argField (commandWord opc arg) = arg := by rw [argField_eq, commandWord_toNat ho ha]; omega
  simp [decode, hhigh, hlow, hopc, harg]

/-- Settles O1: the fields of the word are those it was made of, and a legal argument is read back as it is. -/
theorem decodeInvertsEncode : Obligations.DecodeInvertsEncode := by
  intro i hi
  cases i with
  | padd | pdbl | pmul | sqrt => exact decode_commandWord (by decide) (by decide)
  | decomp odd =>
    have hodd : odd < 2 := of_decide_eq_true hi
    rw [encode, decode_commandWord (by decide) (by omega)]
    simp [decodeFields, hodd, Nat.mod_eq_of_lt hodd]
  | recover recid =>
    have hrecid : recid < 4 := of_decide_eq_true hi
    rw [encode, decode_commandWord (by decide) (by omega)]
    simp [decodeFields, hrecid, Nat.mod_eq_of_lt hrecid]
  | recoverv v => exact decode_commandWord (by decide) (of_decide_eq_true hi)

theorem plainCommand_eq_ok_iff {i j : Instr} {arg : Nat} : plainCommand i arg = .ok j ↔ arg = 0 ∧ i = j := by
  by_cases h : arg = 0 <;> simp [plainCommand, h]

/-- What OPC and ARG decode to is well-formed, and its word has them as its fields (30_encoding.md R71, R72). -/
theorem encode_of_decodeFields {opc arg : Nat} (ha : arg < 256) {i : Instr} (h : decodeFields opc arg = .ok i) :
    i.wellFormed = true ∧ encode i = commandWord opc arg := by
  have plain {j : Instr} {k : Nat} (hj : j.wellFormed = true) (hw : encode j = commandWord k 0)
      (h : plainCommand j arg = .ok i) : i.wellFormed = true ∧ encode i = commandWord k arg := by
    obtain ⟨rfl, rfl⟩ := plainCommand_eq_ok_iff.mp h
    exact ⟨hj, hw⟩
  match opc, h with
  | 1, h | 2, h | 3, h | 4, h => exact plain rfl rfl h
  | 5, h =>
    simp only [decodeFields] at h
    split at h <;> cases h
    next hodd => exact ⟨decide_eq_true (by omega), by rw [encode, show arg % 2 = arg by omega]⟩
  | 6, h =>
    simp only [decodeFields] at h
    split at h <;> cases h
    next hrecid => exact ⟨decide_eq_true (by omega), by rw [encode, show arg % 4 = arg by omega]⟩
  | 7, h =>
    cases h
    exact ⟨decide_eq_true ha, rfl⟩

/-- Settles O2: without a reserved bit a word is the word of its OPC and ARG. -/
theorem encodeInvertsDecode : Obligations.EncodeInvertsDecode := by
  intro w i h
  obtain ⟨hhigh, hlow, hfields⟩ := decode_eq_ok_iff_fields.mp h
  have harg : argField w < 256 := by
    rw [argField_eq]
    omega
  obtain ⟨hwell, hword⟩ := encode_of_decodeFields harg hfields
  exact ⟨hwell, hword.trans (commandWord_fields hhigh hlow)⟩

theorem decode_eq_ok_iff {w : Word32} {i : Instr} : decode w = .ok i ↔ i.wellFormed = true ∧ encode i = w := by
  refine ⟨encodeInvertsDecode w i, ?_⟩
  rintro ⟨hwell, rfl⟩
  exact decodeInvertsEncode i hwell

/-! ## The legal and the illegal words -/

theorem encode_recoverv {v : Nat} (hv : v < 256) : encode (.recoverv v) = BitVec.ofNat 32 (0x07 + v * 0x100) := by
  apply BitVec.eq_of_toNat_eq
  rw [encode, commandWord_toNat (by decide) hv, BitVec.toNat_ofNat]
  omega

/-- The legal words without a v byte, written out (30_encoding.md R74). -/
def listedWords : List (Word32 × Instr) :=
  [(0x00000001#32, .padd), (0x00000002#32, .pdbl), (0x00000003#32, .pmul), (0x00000004#32, .sqrt),
   (0x00000005#32, .decomp 0), (0x00000105#32, .decomp 1), (0x00000006#32, .recover 0),
   (0x00000106#32, .recover 1), (0x00000206#32, .recover 2), (0x00000306#32, .recover 3)]

theorem legal_of_mem_listedWords : ∀ p ∈ listedWords, p.2.wellFormed = true ∧ encode p.2 = p.1 := by decide

/-- The word of a well-formed command is listed, or is one of RECOVERV's. -/
theorem encode_mem_listedWords {i : Instr} (hi : i.wellFormed = true) :
    (encode i, i) ∈ listedWords ∨ ∃ v < 256, encode i = BitVec.ofNat 32 (0x07 + v * 0x100) ∧ i = .recoverv v := by
  cases i with
  | padd | pdbl | pmul | sqrt => exact .inl (by decide)
  | decomp odd =>
    have hodd : odd < 2 := of_decide_eq_true hi
    interval_cases odd <;> exact .inl (by decide)
  | recover recid =>
    have hrecid : recid < 4 := of_decide_eq_true hi
    interval_cases recid <;> exact .inl (by decide)
  | recoverv v =>
    have hv : v < 256 := of_decide_eq_true hi
    exact .inr ⟨v, hv, encode_recoverv hv, rfl⟩

/-- Settles O3: the legal words are those of the well-formed commands, and these are listed. -/
theorem legalWordsAreTheListedOnes : Obligations.LegalWordsAreTheListedOnes := by
  intro w i
  rw [decode_eq_ok_iff]
  constructor
  · rintro ⟨hwell, rfl⟩
    exact encode_mem_listedWords hwell
  · rintro (h | ⟨v, hv, rfl, rfl⟩)
    · exact legal_of_mem_listedWords (w, i) h
    · exact ⟨decide_eq_true hv, encode_recoverv hv⟩

/-- Settles O6: each is one word, or one operand out of its range. -/
theorem listedWordsDecode : Obligations.ListedWordsDecode := by
  unfold Obligations.ListedWordsDecode
  decide

theorem plainCommand_eq_error_iff {i : Instr} {arg : Nat} : (∃ e, plainCommand i arg = .error e) ↔ arg ≠ 0 := by
  by_cases h : arg = 0 <;> simp [plainCommand, h]

/-- Which OPC and ARG are illegal (30_encoding.md R73). -/
theorem decodeFields_eq_error_iff {opc arg : Nat} :
    (∃ e, decodeFields opc arg = .error e) ↔ opc = 0 ∨ 8 ≤ opc ∨ (opc ≤ 4 ∧ arg ≠ 0) ∨ (opc = 5 ∧ 2 ≤ arg) ∨
      (opc = 6 ∧ 4 ≤ arg) := by
  match opc with
  | 0 => simp [decodeFields]
  | 1 | 2 | 3 | 4 => simp [decodeFields, plainCommand_eq_error_iff]
  | 5 => by_cases h : arg / 2 = 0 <;> simp [decodeFields, h] <;> omega
  | 6 => by_cases h : arg / 4 = 0 <;> simp [decodeFields, h] <;> omega
  | 7 => simp [decodeFields]
  | n + 8 => simp [decodeFields]

theorem decode_eq_error_iff_fields {w : Word32} :
    (∃ e, decode w = .error e) ↔
      rsv1Field w ≠ 0 ∨ rsv0Field w ≠ 0 ∨ ∃ e, decodeFields (opcField w) (argField w) = .error e := by
  by_cases hhigh : rsv1Field w = 0 <;> by_cases hlow : rsv0Field w = 0 <;> simp [decode, hhigh, hlow]

/-- Settles O4: the fields that make a word illegal, its accept, and its completion with ILLEGAL_COMMAND. -/
theorem illegalWordsFail : Obligations.IllegalWordsFail := by
  refine ⟨fun w => ?_, fun s w hb => ?_, fun s rest e hnext hd => ?_⟩
  · rw [decode_eq_error_iff_fields, decodeFields_eq_error_iff, opcField_eq, rsv0Field_eq, argField_eq, rsv1Field_eq]
    omega
  · simp [busWrite_cmd, hb]
  · have hres : wordResult s.cmd s.ops = .error .illegalCommand := by rw [wordResult, hd]
    rw [step_eq_complete hnext, hres]
    exact ⟨_, rfl, failedAs_complete _ _, rfl, rfl, rfl, rfl⟩

/-! ## The opcode table -/

/-- A word that a row covers has the row's pattern in every field, under the row's mask. -/
theorem extractLsb'_of_covers {r : OpcodeRow} {w : Word32} (h : r.covers w = true) (start len : Nat) :
    w.extractLsb' start len &&& r.mask.extractLsb' start len = r.pattern.extractLsb' start len := by
  rw [← BitVec.extractLsb'_and, beq_iff_eq.mp h]

/-- Every row fixes OPC and the reserved fields, and beside them the bits of ARG that are reserved for its OPC
(30_encoding.md R70 to R72). -/
theorem opcodeTable_fields : ∀ r ∈ opcodeTable,
    r.mask.extractLsb' 16 16 = BitVec.allOnes 16 ∧ r.pattern.extractLsb' 16 16 = 0 ∧
    r.mask.extractLsb' 4 4 = BitVec.allOnes 4 ∧ r.pattern.extractLsb' 4 4 = 0 ∧
    r.mask.extractLsb' 0 4 = BitVec.allOnes 4 ∧
    ∀ arg : BitVec 8, arg &&& r.mask.extractLsb' 8 8 = r.pattern.extractLsb' 8 8 →
      (decodeFields (opcField r.pattern) arg.toNat).isOk = true := by
  decide +kernel

theorem decode_isOk_of_covers {r : OpcodeRow} (hr : r ∈ opcodeTable) {w : Word32} (h : r.covers w = true) :
    ∃ i, decode w = .ok i := by
  have field := extractLsb'_of_covers h
  obtain ⟨hhighMask, hhighPattern, hlowMask, hlowPattern, hopcMask, harg⟩ := opcodeTable_fields r hr
  have hhigh : rsv1Field w = 0 := by
    have := field 16 16
    rw [hhighMask, hhighPattern, BitVec.and_allOnes] at this
    simp [rsv1Field, this]
  have hlow : rsv0Field w = 0 := by
    have := field 4 4
    rw [hlowMask, hlowPattern, BitVec.and_allOnes] at this
    simp [rsv0Field, this]
  have hopc : opcField w = opcField r.pattern := by
    have := field 0 4
    rw [hopcMask, BitVec.and_allOnes] at this
    simp [opcField, this]
  have hok := harg _ (field 8 8)
  rw [← hopc] at hok
  cases hd : decodeFields (opcField w) (argField w) with
  | ok i => exact ⟨i, decode_eq_ok_iff_fields.mpr ⟨hhigh, hlow, hd⟩⟩
  | error e => rw [argField] at hd; rw [hd] at hok; cases hok

/-- The word of a well-formed command belongs to the row of its mnemonic alone. -/
theorem tableRow (i : Instr) : TableRow.Statement i := by
  cases i with
  | padd => exact TableRow.padd
  | pdbl => exact TableRow.pdbl
  | pmul => exact TableRow.pmul
  | sqrt => exact TableRow.sqrt
  | decomp odd => exact TableRow.decomp odd
  | recover recid => exact TableRow.recover recid
  | recoverv v => exact TableRow.recoverv v

/-- No two rows have one mnemonic. -/
theorem filter_mnemonic_of_mem : ∀ r ∈ opcodeTable, opcodeTable.filter (·.mnemonic == r.mnemonic) = [r] := by
  decide

/-- Settles O5: a legal word has the row of its command alone, and a word that any row covers is legal. -/
theorem decodeAgreesWithOpcodeTable : Obligations.DecodeAgreesWithOpcodeTable := by
  intro w
  cases hd : decode w with
  | ok i =>
    obtain ⟨hwell, rfl⟩ := encodeInvertsDecode w i hd
    obtain ⟨r, hfilter, hmnemonic⟩ := List.map_eq_singleton_iff.mp (tableRow i hwell)
    have hr : r ∈ opcodeTable := List.mem_of_mem_filter (hfilter ▸ List.mem_singleton_self r)
    simp only [← hmnemonic]
    rw [hfilter, filter_mnemonic_of_mem r hr]
  | error e =>
    refine List.filter_eq_nil_iff.mpr fun r hr hcovers => ?_
    obtain ⟨i, hi⟩ := decode_isOk_of_covers hr hcovers
    rw [hd] at hi
    cases hi

end Sys2Proof.Proofs
end

section
/-! What the host's programs leave behind: `ld256`, `rd256` and `run` (30_encoding.md R79). -/

namespace Sys2Proof.Proofs
open Sys2Proof.Machine Sys2Proof.Laws

/-! ## `ld256` -/

theorem wideReg_word_offset_lt (r : WideReg) {j : Nat} (hj : j < 8) : r.offset + 4 * j < 4096 := by
  cases r <;> simp only [WideReg.offset] <;> omega

theorem wideReg_word_offset_mod_four (r : WideReg) (j : Nat) : (r.offset + 4 * j) % 4 = 0 := by
  have := wideReg_offset_mod_four r
  omega

/-- What stands outside the engine shows in no register (10_state.md R39). -/
theorem wide_outside (s : State) (es : List Event) (vals : List (String × Word32)) (r : WideReg) :
    State.wide { s with events := es, hostVals := vals } r = s.wide r := by
  cases r <;> rfl

theorem wide_setOperand_events (s : State) {r : WideReg} (hr : r.isOperand = true) (v : Word256) (es : List Event) :
    State.wide { s with ops := setOperand s.ops r v, events := es } r = v :=
  (wide_outside _ es s.hostVals r).trans (wide_setOperand s r hr v)

theorem setOperand_wide (s : State) (r : WideReg) : setOperand s.ops r (s.wide r) = s.ops := by
  cases r <;> rfl

theorem setOperand_setOperand (o : OperandFile) (r : WideReg) (x y : Word256) :
    setOperand (setOperand o r x) r y = setOperand o r y := by
  cases r <;> rfl

/-- The step of a write to a word of an operand register while idle (20_memory.md R56). -/
theorem step_wr_operand {s : State} {r : WideReg} {j : Nat} {v : Word32} {es : List Event} (hh : s.resetHeld = false)
    (hb : s.busy = false) (hr : r.isOperand = true) (hj : j < 8)
    (he : s.events = .host (wrOp (r.offset + 4 * j) v) :: es) :
    step s = .next { s with ops := setOperand s.ops r (withWord (s.wide r) j v), events := es } := by
  rw [step_eq_hostAccess hh he, ← wide_outside s es s.hostVals r]
  refine (busAccess_aligned (wideReg_word_offset_lt r hj) (wideReg_word_offset_mod_four r j) _).trans ?_
  exact congrArg _ (busWrite_operand_idle (windowWord_wide r j hj) hr v hb)

/-- The value x once the words of imm listed in js have been written into it. -/
def writtenWords (imm : Word256) (js : List Nat) (x : Word256) : Word256 :=
  js.foldl (fun x j => withWord x j (wordOf imm j)) x

theorem wordOf_writtenWords (imm : Word256) {js : List Nat} (hjs : ∀ j ∈ js, j < 8) {i : Nat} (hi : i < 8)
    (x : Word256) : wordOf (writtenWords imm js x) i = if i ∈ js then wordOf imm i else wordOf x i := by
  induction js generalizing x with
  | nil => simp [writtenWords]
  | cons j js ih =>
    obtain ⟨hj, hjs⟩ := List.forall_mem_cons.mp hjs
    refine (ih hjs (withWord x j (wordOf imm j))).trans ?_
    by_cases hij : i = j
    · subst hij
      simp [wordOf_withWord_self]
    · simp [hij, wordOf_withWord_other x j i _ hj hi hij]

theorem writtenWords_range (imm x : Word256) : writtenWords imm (List.range 8) x = imm := by
  refine eq_of_words fun i hi => ?_
  rw [wordOf_writtenWords imm (fun j => List.mem_range.mp) hi, if_pos (List.mem_range.mpr hi)]

/-- Writes of words of imm to an operand register while idle, in any order. -/
theorem run_writes {r : WideReg} (hr : r.isOperand = true) (imm : Word256) {js : List Nat} (hjs : ∀ j ∈ js, j < 8)
    {es : List Event} {s : State} (hh : s.resetHeld = false) (hb : s.busy = false)
    (he : s.events = (js.map fun j => wrOp (r.offset + 4 * j) (wordOf imm j)).map .host ++ es) :
    Host.Core.run Sys2Proof.core js.length s =
      .next { s with ops := setOperand s.ops r (writtenWords imm js (s.wide r)), events := es } := by
  induction js generalizing s with
  | nil =>
    obtain rfl : s.events = es := he
    rw [writtenWords, List.foldl_nil, setOperand_wide]
    rfl
  | cons j js ih =>
    obtain ⟨hj, hjs⟩ := List.forall_mem_cons.mp hjs
    rw [List.length_cons, run_step (step_wr_operand hh hb hr hj he), ih hjs, wide_setOperand_events s hr,
      setOperand_setOperand]
    · rfl
    · exact hh
    · exact hb
    · rfl

/-! ## `rd256` -/

/-- The step of a read of a word of a 256-bit register (20_memory.md R55). -/
theorem step_rd_wide {s : State} {r : WideReg} {j : Nat} {name : String} {es : List Event} (hh : s.resetHeld = false)
    (hj : j < 8) (he : s.events = .host (rdOp (r.offset + 4 * j) name) :: es) :
    step s = .next { s with events := es, hostVals := (name, wordOf (s.wide r) j) :: s.hostVals } := by
  rw [step_rd hh (wideReg_word_offset_lt r hj) (wideReg_word_offset_mod_four r j) he, busRead_wide s r j hj]

/-- The words of x listed in js, under their names, the latest first. -/
def readWords (name : String) (x : Word256) (js : List Nat) : List (String × Word32) :=
  (js.map fun j => (wordName name j, wordOf x j)).reverse

theorem readWords_cons_append (name : String) (x : Word256) (j : Nat) (js : List Nat) (vals : List (String × Word32)) :
    readWords name x (j :: js) ++ vals = readWords name x js ++ (wordName name j, wordOf x j) :: vals := by
  simp [readWords]

theorem mem_readWords {name : String} {x : Word256} {js : List Nat} {p : String × Word32} :
    p ∈ readWords name x js ↔ ∃ j ∈ js, (wordName name j, wordOf x j) = p := by
  simp [readWords]

/-- Reads of words of a 256-bit register, in any order. -/
theorem run_reads (r : WideReg) (name : String) {js : List Nat} (hjs : ∀ j ∈ js, j < 8) {es : List Event} {s : State}
    (hh : s.resetHeld = false)
    (he : s.events = (js.map fun j => rdOp (r.offset + 4 * j) (wordName name j)).map .host ++ es) :
    Host.Core.run Sys2Proof.core js.length s =
      .next { s with events := es, hostVals := readWords name (s.wide r) js ++ s.hostVals } := by
  induction js generalizing s with
  | nil =>
    obtain rfl : s.events = es := he
    rfl
  | cons j js ih =>
    obtain ⟨hj, hjs⟩ := List.forall_mem_cons.mp hjs
    rw [List.length_cons, run_step (step_rd_wide hh hj he), ih hjs, wide_outside, readWords_cons_append]
    · rfl
    · exact hh
    · rfl

/-- A word just read is found before what the host had under the same name, and under no other word's name. -/
theorem lookup_readWords (name : String) (x : Word256) {js : List Nat} (hjs : ∀ j ∈ js, j < 8) {j : Nat} (hj : j ∈ js)
    (vals : List (String × Word32)) :
    (readWords name x js ++ vals).lookup (wordName name j) = some (wordOf x j) := by
  have hmem : (wordName name j, wordOf x j) ∈ readWords name x js := mem_readWords.mpr ⟨j, hj, rfl⟩
  obtain ⟨v, hv⟩ := Option.isSome_iff_exists.mp (List.lookup_isSome_iff.mpr ⟨_, hmem, beq_self_eq_true _⟩)
  obtain ⟨before, after, hsplit, -⟩ := List.lookup_eq_some_iff.mp hv
  have hfound : (wordName name j, v) ∈ readWords name x js := by simp [hsplit]
  obtain ⟨i, hi, heq⟩ := mem_readWords.mp hfound
  obtain ⟨hname, rfl⟩ := Prod.mk.inj heq
  obtain rfl := wordName_injective name (hjs i hi) (hjs j hj) hname
  rw [List.lookup_append, hv, Option.some_or]

/-- Settles O59: the eight writes replace every word of the register, and the eight reads leave every word of it with
the host. -/
theorem ld256LoadsTheRegister : Obligations.Ld256LoadsTheRegister := by
  have inRange : ∀ j ∈ List.range 8, j < 8 := fun j => List.mem_range.mp
  refine ⟨fun s r imm es hh hb hr he => ?_, fun s r name es hh he => ?_⟩
  · have hrun := run_writes hr imm inRange hh hb he
    rwa [writtenWords_range] at hrun
  · refine ⟨_, run_reads r name inRange hh he, hostValue256_eq fun j hj => ?_⟩
    exact lookup_readWords name (s.wide r) inRange (List.mem_range.mpr hj) _

/-! ## `run` -/

theorem statusWord_and_doneMask (s : State) : s.statusWord &&& 0x00000002#32 = 0x00000002#32 ↔ s.done = true := by
  obtain ⟨-, hdone, -⟩ := statusWord_flags s
  rw [show 0x00000002#32 = BitVec.twoPow 32 1 from rfl, BitVec.and_twoPow, hdone]
  cases s.done <;> decide

/-- The step of a wait for DONE (30_encoding.md R79): a read that finds DONE = 0 is repeated after an engine step. -/
theorem step_wait {s : State} {es : List Event} (hh : s.resetHeld = false)
    (he : s.events = waitOps.map .host ++ es) :
    step s = .next { s with events := if s.done then es else .engine :: (waitOps.map .host ++ es) } := by
  refine (step_poll hh (off := CtrlReg.status.offset) (by decide) rfl he).trans ?_
  rw [busRead_ctrl, State.ctrl]
  by_cases hd : s.done = true
  · rw [if_pos ((statusWord_and_doneMask s).mpr hd), if_pos hd]
    rfl
  · rw [if_neg (mt (statusWord_and_doneMask s).mp hd), if_neg hd]
    rfl

/-- A completion depends neither on the steps left nor on the events to come. -/
theorem complete_progress (r : CmdResult) (s : State) (n : Nat) (es es' : List Event) :
    { complete r { s with remaining := n, events := es } with events := es' } =
      { complete r s with events := es' } := by
  cases r with
  | error c => rfl
  | ok q => cases q <;> rfl

/-- The wait ends with the completion of the command in flight, by induction on the steps it has left
(40_command_execution.md R114, R115). -/
theorem wait_reaches_completion {es : List Event} {s : State} (hh : s.resetHeld = false) (hb : s.busy = true)
    (hd : s.done = false) (he : s.events = waitOps.map .host ++ es) :
    ∃ k, Host.Core.run Sys2Proof.core k s = .next { complete (wordResult s.cmd s.ops) s with events := es } := by
  induction hn : s.remaining using Nat.strong_induction_on generalizing s with
  | _ n ih =>
    have hread : step s = .next { s with events := .engine :: (waitOps.map .host ++ es) } := by
      rw [step_wait hh he, hd]
      rfl
    have hengine := step_eq_engineStep (s := { s with events := .engine :: (waitOps.map .host ++ es) }) hh (.inr rfl)
    rcases engineStep_cases { s with events := waitOps.map .host ++ es } with
      ⟨hidle, -⟩ | ⟨-, hr, hprogress⟩ | ⟨-, -, hcomplete⟩
    · exact absurd (hb.symm.trans hidle) (by decide)
    · have hless : s.remaining - 1 < n := by
        have : 1 < s.remaining := hr
        omega
      obtain ⟨k, hk⟩ := ih _ hless
        (s := { s with events := waitOps.map .host ++ es, remaining := s.remaining - 1 }) hh hb hd rfl rfl
      refine ⟨k + 2, ?_⟩
      rw [run_step hread, run_step (hengine.trans hprogress), hk]
      exact congrArg _ (complete_progress _ s _ _ es)
    · have hlast := step_wait (es := es)
        (s := complete (wordResult s.cmd s.ops) { s with events := waitOps.map .host ++ es })
        ((complete_resetHeld _ _).trans hh) (complete_events _ _)
      rw [complete_done] at hlast
      refine ⟨3, ?_⟩
      rw [run_step hread, run_step (hengine.trans hcomplete), run_step hlast]
      exact congrArg _ (complete_progress _ s s.remaining _ es)

/-- The accesses of `run`, if the assembler accepts the command (30_encoding.md R77, R79). -/
theorem runOps_eq_some_iff {i : Instr} {ops : List HostOp} :
    runOps i = some ops ↔ i.wellFormed = true ∧ wrOp CtrlReg.cmd.offset (encode i) :: waitOps = ops := by
  cases h : i.wellFormed <;> simp [runOps, cmdOps, assemble, h]

/-- The step of the CMD write of `run` on an idle engine (40_command_execution.md R113). -/
theorem step_wr_cmd {s : State} {w : Word32} {es : List Event} (hh : s.resetHeld = false) (hb : s.busy = false)
    (he : s.events = .host (wrOp CtrlReg.cmd.offset w) :: es) :
    step s = .next { accept w s with events := es } := by
  rw [step_eq_hostAccess hh he]
  refine (busAccess_aligned (off := CtrlReg.cmd.offset) (by decide) rfl _).trans ?_
  rw [busWrite_ctrl, writeCtrl, hb]
  rfl

/-- Settles O60: the write is accepted, and the wait reaches the completion of the command it started. -/
theorem runReachesTheOutcome : Obligations.RunReachesTheOutcome := by
  refine ⟨fun i hi => ?_, fun s i ops es hh hb hops he => ?_⟩
  · simp [runOps, cmdOps, assemble, hi]
  obtain ⟨hwell, rfl⟩ := runOps_eq_some_iff.mp hops
  have hwrite : busWrite 0x008 (encode i) s = accept (encode i) s := by simp [busWrite_cmd, hb]
  have hres : wordResult (encode i) s.ops = commandResult i s.ops := by
    rw [wordResult, decodeInvertsEncode i hwell]
  obtain ⟨k, hk⟩ := wait_reaches_completion (es := es)
    (s := { accept (encode i) s with events := waitOps.map .host ++ es }) hh rfl rfl rfl
  rw [complete_progress] at hk
  refine ⟨k + 1, _, _, (run_step (step_wr_cmd hh hb he)).trans hk, exec_eq i _, ?_⟩
  simp [hwrite, hres]

end Sys2Proof.Proofs
end

section
/-! The lifecycle of a command: the accept, the engine steps before the completion, the completion, and what it leaves
unchanged (40_command_execution.md R113 to R119). -/

namespace Sys2Proof.Proofs
open Sys2Proof.Machine Sys2Proof.Laws

/-! ## The step that completes a command -/

/-- The outcome of a legal word is that of its command (40_command_execution.md R117). -/
theorem wordResult_of_decode {w : Word32} {i : Instr} (h : decode w = .ok i) (o : OperandFile) :
    wordResult w o = commandResult i o := by
  simp only [wordResult, h]

/-- Settles O7: both sides are the completion with the outcome of the latched command. -/
theorem stepRunsDecodedCommand : Obligations.StepRunsDecodedCommand := by
  intro s rest i h hdecode
  rw [step_eq_complete h, exec_eq, wordResult_of_decode hdecode]

/-- A 32-bit word is its own table word (30_encoding.md R76). -/
theorem tableWord_toNat (w : Word32) : tableWord 32 w.toNat = w := by
  rw [tableWord, Nat.mod_eq_of_lt w.isLt, BitVec.ofNat_toNat, BitVec.setWidth_eq]

/-- Settles O8: the placed word decodes to its command, and its completion is the next event. -/
theorem placedCommandRunsNext : Obligations.PlacedCommandRunsNext := by
  intro s i hwell
  rw [State.withFetchWord, tableWord_toNat]
  exact stepRunsDecodedCommand (placeCommand (encode i) s) s.events i ⟨rfl, rfl, rfl, .inr rfl⟩
    (decodeInvertsEncode i hwell)

/-! ## The steps before it -/

/-- The host sees neither the steps left nor the events to come (10_state.md R37). -/
theorem busRead_progress (s : State) (n : Nat) (es : List Event) (off : Nat) :
    busRead { s with remaining := n, events := es } off = busRead s off := rfl

/-- Settles O9: an engine step before the last one changes only the hidden counter, and one while idle nothing. -/
theorem engineStepBeforeCompletionIsInvisible : Obligations.EngineStepBeforeCompletionIsInvisible := by
  intro s rest hheld hnext
  rw [step_eq_engineStep hheld hnext]
  refine ⟨fun hbusy hleft => ?_, fun hidle => ?_⟩
  · refine ⟨{ s with remaining := s.remaining - 1, events := rest }, ?_, rfl, hbusy, rfl, busRead_progress s _ _,
      rfl, rfl⟩
    simp [engineStep, hbusy, Nat.not_le.mpr hleft]
  · simp [engineStep, hidle]

/-- Settles O10: the write to CMD is the accept while idle and the dropped write while busy. -/
theorem acceptStartsTheCommand : Obligations.AcceptStartsTheCommand := by
  intro s w
  refine ⟨fun hidle => ⟨Config.latency w s.ops, Nat.le_add_left 1 _, ?_⟩, fun hbusy => ?_⟩
  · rw [busWrite_cmd, hidle]
    rfl
  · exact (busWrite_cmd w s).trans (if_pos hbusy)

/-! ## The frame of a completion -/

/-- Of the 32-bit registers a completion writes STATUS and IRQPEND alone (40_command_execution.md R119). -/
theorem ctrl_complete {c : CtrlReg} (hstatus : c ≠ .status) (hirqpend : c ≠ .irqpend) (r : CmdResult) (s : State) :
    (complete r s).ctrl c = s.ctrl c := by
  cases c with
  | id | version => rfl
  | cmd => exact complete_cmd r s
  | status => exact absurd rfl hstatus
  | irqen => simp only [State.ctrl, State.irqenWord, complete_doneie]
  | irqpend => exact absurd rfl hirqpend
  | opflags => simp only [State.ctrl, State.opflagsWord, complete_ops]

/-- Of the 256-bit registers a completion writes QX and QY alone (40_command_execution.md R119). -/
theorem wide_complete {w : WideReg} (hx : w ≠ .qx) (hy : w ≠ .qy) (r : CmdResult) (s : State) :
    (complete r s).wide w = s.wide w := by
  cases w with
  | ax | ay | bx | by_ | k | sigR | sigS | digest => simp only [State.wide, complete_ops]
  | qx => exact absurd rfl hx
  | qy => exact absurd rfl hy
  | constP | constN | constGx | constGy => rfl

/-- A completion shows in no word of the window but STATUS, IRQPEND and the sixteen of QX and QY
(40_command_execution.md R119). -/
theorem busRead_complete {off : Nat} (hstatus : off ≠ 0x00C) (hirqpend : off ≠ 0x014)
    (hresult : ¬(0x200 ≤ off ∧ off < 0x240)) (r : CmdResult) (s : State) :
    busRead (complete r s) off = busRead s off := by
  rcases hw : windowWord off with c | ⟨w, j⟩ | _
  · obtain rfl := offset_of_windowWord_ctrl hw
    rw [busRead_ctrl, busRead_ctrl]
    exact ctrl_complete (ne_of_apply_ne _ hstatus) (ne_of_apply_ne _ hirqpend) r s
  · obtain ⟨hlo, hhi, -⟩ := offset_of_windowWord_wide hw
    have hx : w ≠ .qx := by
      rintro rfl
      simp only [WideReg.offset] at hlo hhi
      omega
    have hy : w ≠ .qy := by
      rintro rfl
      simp only [WideReg.offset] at hlo hhi
      omega
    simp only [busRead, hw, wide_complete hx hy]
  · rw [busRead_of_reserved hw, busRead_of_reserved hw]

/-- Settles O11: every command ends in a completion, whose frame is that of the shared operation. -/
theorem commandWritesOnlyItsOutcome : Obligations.CommandWritesOnlyItsOutcome := by
  intro i s
  refine ⟨_, exec_eq i s, complete_busy _ _, complete_done _ _, complete_doneip _ _, complete_remaining _ _,
    complete_cmd _ _, complete_ops _ _, complete_werr _ _, complete_doneie _ _, complete_resetHeld _ _,
    complete_events _ _, complete_hostVals _ _, fun off hstatus hirqpend hresult => ?_⟩
  exact busRead_complete hstatus hirqpend hresult _ s

end Sys2Proof.Proofs
end

section
/-! The outcome of a command: the registers it depends on, the points it returns, and the inverses it computes with
(40_command_execution.md R103, R110, R118). -/

namespace Sys2Proof.Proofs
open Sys2Proof.Machine Sys2Proof.Laws

/-! ## What a command reads -/

/-- The coordinates of A count only while AINF = 0 (10_state.md R30). -/
theorem operandA_eq_of_sameA {o o' : OperandFile} (h : sameA o o') : operandA o = operandA o' := by
  obtain ⟨hinf, hxy⟩ := h
  cases ha : o.ainf with
  | true => simp [operandA, ← hinf, ha]
  | false =>
    obtain ⟨hx, hy⟩ := hxy ha
    simp [operandA, ← hinf, ha, hx, hy]

/-- The coordinates of B count only while BINF = 0 (10_state.md R30). -/
theorem operandB_eq_of_sameB {o o' : OperandFile} (h : sameB o o') : operandB o = operandB o' := by
  obtain ⟨hinf, hxy⟩ := h
  cases hb : o.binf with
  | true => simp [operandB, ← hinf, hb]
  | false =>
    obtain ⟨hx, hy⟩ := hxy hb
    simp [operandB, ← hinf, hb, hx, hy]

/-- The outcome is a function of the registers listed for the command (10_state.md R38). -/
theorem commandResult_eq_of_sameReads {i : Instr} {o o' : OperandFile} (h : sameReads i o o') :
    commandResult i o = commandResult i o' := by
  cases i with
  | padd =>
    obtain ⟨hA, hB⟩ := h
    simp only [commandResult, paddResult, operandA_eq_of_sameA hA, operandB_eq_of_sameB hB]
  | pdbl => simp only [commandResult, pdblResult, operandA_eq_of_sameA h]
  | pmul =>
    obtain ⟨hA, hk⟩ := h
    simp only [commandResult, pmulResult, operandA_eq_of_sameA hA, hk]
  | sqrt =>
    have hx : o.ax = o'.ax := h
    simp only [commandResult, sqrtResult, hx]
  | decomp odd =>
    have hx : o.ax = o'.ax := h
    simp only [commandResult, decompResult, hx]
  | recover recid =>
    obtain ⟨hr, hs, hd⟩ := h
    simp only [commandResult, recoverResult, hr, hs, hd]
  | recoverv v =>
    obtain ⟨hr, hs, hd⟩ := h
    simp only [commandResult, recovervResult, hr, hs, hd]

theorem fits_of_inRange {q : Point} (h : ¬outOfRange q) : fits q := by
  cases q with
  | inf => trivial
  | aff x y =>
    simp only [outOfRange, not_or, not_le] at h
    obtain ⟨hx, hy⟩ := h
    exact ⟨hx.trans curveP_lt, hy.trans curveP_lt⟩

/-- A success overwrites the result registers, so they do not depend on the state before (40_command_execution.md
R116). -/
theorem complete_ok_registers_eq (q : Point) (s s' : State) :
    (complete (.ok q) s).qx = (complete (.ok q) s').qx ∧ (complete (.ok q) s).qy = (complete (.ok q) s').qy ∧
      (complete (.ok q) s).qinf = (complete (.ok q) s').qinf := by
  cases q <;> exact ⟨rfl, rfl, rfl⟩

/-- Settles O13: the two states give one outcome, and each completes with it. -/
theorem commandReadsOnlyItsRegisters : Obligations.CommandReadsOnlyItsRegisters := by
  intro i s s' hreads
  refine ⟨_, _, exec_eq i s, exec_eq i s', ?_⟩
  rw [← commandResult_eq_of_sameReads hreads]
  cases hres : commandResult i s.ops with
  | ok q =>
    have hfits := fits_of_inRange (commandResult_inRange hres)
    exact .inl ⟨q, succeededAs_complete hfits s, succeededAs_complete hfits s', complete_ok_registers_eq q s s'⟩
  | error c => exact .inr ⟨c.code, failedAs_complete c s, failedAs_complete c s'⟩

/-! ## What a command returns -/

/-- Settles O37: an outcome that is no error is a valid point, which the result registers then hold. -/
theorem resultsAreValidPoints : Obligations.ResultsAreValidPoints := by
  intro i s hi
  refine ⟨_, exec_eq i s, fun herr => ?_⟩
  cases hres : commandResult i s.ops with
  | ok q => exact complete_ok_valid (commandResult_valid hi hres) s
  | error c =>
    rw [hres] at herr
    cases herr

/-! ## The modular inverses -/

/-- Modulo a prime the inverse is the only reduced number with its property (40_command_execution.md R103): a factor
prime to the modulus cancels. -/
theorem isInverse_iff_eq_invMod {m a : Nat} (hm : m.Prime) (hlt : m < 2 ^ 256) (ha : a % m ≠ 0) (b : Nat) :
    (1 ≤ b ∧ b < m ∧ a * b % m = 1) ↔ b = invMod m a := by
  have hspec := invMod_spec m a hm hlt ha
  refine ⟨fun ⟨_, hb, hab⟩ => ?_, fun h => h ▸ hspec⟩
  obtain ⟨-, hinv, hainv⟩ := hspec
  have hcop : Nat.gcd m a = 1 := (hm.coprime_iff_not_dvd).mpr (mt Nat.mod_eq_zero_of_dvd ha)
  have hmod : b ≡ invMod m a [MOD m] := Nat.ModEq.cancel_left_of_coprime hcop (hab.trans hainv.symm)
  exact hmod.eq_of_lt_of_lt hb hinv

/-- Settles O18: p and n are primes below 2^256. -/
theorem inversesAreUnique : Obligations.InversesAreUnique :=
  ⟨fun _ ha => isInverse_iff_eq_invMod curveP_prime curveP_lt ha,
    fun _ ha => isInverse_iff_eq_invMod curveN_prime (curveN_lt_curveP.trans curveP_lt) ha⟩

end Sys2Proof.Proofs
end

section
/-! The group functions by their rules: the slope and the third point of a line as congruences modulo p
(41_point_math.md R130, R131), and the multiple bit by bit (R132, R133). -/

namespace Sys2Proof.Proofs
open Sys2Proof.Machine Sys2Proof.Laws

/-! ## Tangent and chord -/

/-- The third point of a line is affine and reduced, with the coordinates of 41_point_math.md R130, R131. -/
theorem lineThird_congruences (l x1 y1 x2 : Nat) : ∃ x3 y3 : Nat, lineThird l x1 y1 x2 = .aff x3 y3 ∧
    x3 < curveP ∧ y3 < curveP ∧ (x3 : ℤ) ≡ l * l - x1 - x2 [ZMOD curveP] ∧
    (y3 : ℤ) ≡ l * (x1 - x3) - y1 [ZMOD curveP] := by
  refine ⟨_, _, rfl, fsub_lt _ _, fsub_lt _ _, ?_, ?_⟩
  · rw [← ZMod.intCast_eq_intCast_iff]
    push_cast [fsub_cast]
    ring
  · rw [← ZMod.intCast_eq_intCast_iff]
    push_cast [fsub_cast]
    ring

theorem tangentSlope_congruence (x : Nat) {y : Nat} (hy : y < curveP) (h0 : y ≠ 0) :
    (tangentSlope x y : ℤ) * (2 * y) ≡ 3 * x * x [ZMOD curveP] := by
  have := curveP_fact
  have hden : (2 * y : ZMod curveP) ≠ 0 := mul_ne_zero secp_two_ne_zero (mt (cast_eq_zero_iff_of_lt hy).mp h0)
  rw [← ZMod.intCast_eq_intCast_iff, tangentSlope]
  push_cast [fmul_cast, invP_cast, curveA]
  rw [inv_mul_cancel_right₀ hden, add_zero]

theorem chordSlope_congruence {x1 x2 : Nat} (y1 y2 : Nat) (h1 : x1 < curveP) (h2 : x2 < curveP) (hne : x1 ≠ x2) :
    (chordSlope x1 y1 x2 y2 : ℤ) * (x2 - x1) ≡ y2 - y1 [ZMOD curveP] := by
  have := curveP_fact
  have hden : (x2 - x1 : ZMod curveP) ≠ 0 := sub_ne_zero.mpr fun h => hne (eq_of_cast_eq h2 h1 h).symm
  rw [← ZMod.intCast_eq_intCast_iff, chordSlope]
  push_cast [fmul_cast, invP_cast, fsub_cast]
  rw [inv_mul_cancel_right₀ hden]

@[simp] theorem ecDouble_aff_zero (x : Nat) : ecDouble (.aff x 0) = .inf := rfl

theorem ecDouble_aff (x : Nat) {y : Nat} (h : y ≠ 0) :
    ecDouble (.aff x y) = lineThird (tangentSlope x y) x y x := if_neg h

@[simp] theorem ecAdd_inf_left (Q : Point) : ecAdd .inf Q = Q := rfl

@[simp] theorem ecAdd_inf_right (P : Point) : ecAdd P .inf = P := by cases P <;> rfl

theorem ecAdd_same_x (x : Nat) {y1 y2 : Nat} (h : y1 ≠ y2) : ecAdd (.aff x y1) (.aff x y2) = .inf :=
  if_pos ⟨rfl, h⟩

theorem ecAdd_self (x y : Nat) : ecAdd (.aff x y) (.aff x y) = ecDouble (.aff x y) := by simp [ecAdd]

theorem ecAdd_aff {x1 x2 : Nat} (y1 y2 : Nat) (h : x1 ≠ x2) :
    ecAdd (.aff x1 y1) (.aff x2 y2) = lineThird (chordSlope x1 y1 x2 y2) x1 y1 x2 := by simp [ecAdd, h]

/-- The curve has no point of order 2 (00_scope.md R13). -/
theorem y_ne_zero_of_valid {x y : Nat} (h : (Point.aff x y).valid = true) : y ≠ 0 := by
  obtain ⟨-, -, hpoints⟩ := curveFacts_hold
  exact (hpoints x y h).2

/-- Two different valid points of one x are negatives: their y are the two roots of one square. -/
theorem eq_sub_of_valid_same_x {x y1 y2 : Nat} (h1 : (Point.aff x y1).valid = true)
    (h2 : (Point.aff x y2).valid = true) (hne : y1 ≠ y2) : y2 = curveP - y1 := by
  have := curveP_fact
  have h0 := y_ne_zero_of_valid h1
  obtain ⟨-, hy1, hon1⟩ := (valid_aff x y1).mp h1
  obtain ⟨-, hy2, hon2⟩ := (valid_aff x y2).mp h2
  have hsq : (y2 : ZMod curveP) * y2 = y1 * y1 := ((onCurve_iff x y2).mp hon2).trans ((onCurve_iff x y1).mp hon1).symm
  rcases mul_self_eq_mul_self_iff.mp hsq with h | h
  · exact absurd (eq_of_cast_eq hy2 hy1 h).symm hne
  · refine eq_of_cast_eq hy2 (Nat.sub_lt curveP_pos (Nat.pos_of_ne_zero h0)) ?_
    rw [h, Nat.cast_sub hy1.le]
    simp

/-- Settles O19: the slope times 2y is 3x², since 2y is invertible modulo p. -/
theorem ecDoubleIsTheTangentRule : Obligations.EcDoubleIsTheTangentRule := by
  refine ⟨rfl, ecDouble_aff_zero, fun x y _ hy h0 => ?_, fun _ _ => y_ne_zero_of_valid⟩
  obtain ⟨x', y', heq, hx', hy', hcx, hcy⟩ := lineThird_congruences (tangentSlope x y) x y x
  refine ⟨_, x', y', (ecDouble_aff x h0).trans heq, hx', hy', tangentSlope_congruence x hy h0, ?_, hcy⟩
  rwa [sub_sub, ← two_mul] at hcx

/-- Settles O20: the slope times the difference of the x is that of the y, since the former is invertible modulo p. -/
theorem ecAddIsTheChordRule : Obligations.EcAddIsTheChordRule := by
  refine ⟨ecAdd_inf_left, ecAdd_inf_right, fun x _ _ => ecAdd_same_x x, ecAdd_self,
    fun x1 y1 x2 y2 hx1 _ hx2 _ hne => ?_, fun _ _ _ => eq_sub_of_valid_same_x⟩
  obtain ⟨x3, y3, heq, hx3, hy3, hcx, hcy⟩ := lineThird_congruences (chordSlope x1 y1 x2 y2) x1 y1 x2
  exact ⟨_, x3, y3, (ecAdd_aff y1 y2 hne).trans heq, hx3, hy3, chordSlope_congruence y1 y2 hx1 hx2 hne, hcx, hcy⟩

/-! ## The multiple -/

/-- One round of the loop of 41_point_math.md R132: double, and add P where the bit is set. -/
def mulRound (P : Point) (bit : Bool) (R : Point) : Point := if bit then ecAdd (ecDouble R) P else ecDouble R

@[simp] theorem mulRound_false (P R : Point) : mulRound P false R = ecDouble R := rfl

@[simp] theorem mulRound_true (P R : Point) : mulRound P true R = ecAdd (ecDouble R) P := rfl

theorem ecMulLoop_succ (P : Point) (k i : Nat) (R : Point) :
    ecMulLoop P k (i + 1) R = ecMulLoop P k i (mulRound P (k.testBit i) R) := rfl

/-- The loop stays at INF as long as every round does. -/
theorem ecMulLoop_inf {P : Point} {k : Nat} (h : ∀ i, mulRound P (k.testBit i) .inf = .inf) (i : Nat) :
    ecMulLoop P k i .inf = .inf := by
  induction i with
  | zero => rfl
  | succ i ih => rw [ecMulLoop_succ, h, ih]

/-- A bit appended below j is one more round, after those of j. -/
theorem ecMulLoop_bit (P : Point) (b : Bool) (j i : Nat) (R : Point) :
    ecMulLoop P (Nat.bit b j) (i + 1) R = mulRound P b (ecMulLoop P j i R) := by
  induction i generalizing R with
  | zero => rw [ecMulLoop_succ, Nat.testBit_bit_zero]; rfl
  | succ i ih => rw [ecMulLoop_succ, ih, Nat.testBit_bit_succ, ecMulLoop_succ]

theorem ecMul_bit (P : Point) (b : Bool) {j : Nat} (hj : j < 2 ^ 255) :
    ecMul P (Nat.bit b j) = mulRound P b (ecMul P j) := by
  have htop : ecMul P j = ecMulLoop P j 255 .inf := by
    rw [ecMul, ecMulLoop_succ, Nat.testBit_lt_two_pow hj]; rfl
  rw [htop, ecMul, ecMulLoop_bit]

@[simp] theorem ecMul_zero (P : Point) : ecMul P 0 = .inf := ecMulLoop_inf (fun i => by simp [ecDouble]) 256

@[simp] theorem ecMul_inf (k : Nat) : ecMul .inf k = .inf :=
  ecMulLoop_inf (fun i => by cases k.testBit i <;> rfl) 256

@[simp] theorem ecMul_one (P : Point) : ecMul P 1 = P := by
  have h := ecMul_bit P true (j := 0) (by decide)
  rwa [ecMul_zero] at h

/-- Settles O21: 2j and 2j + 1 are j with a bit appended, so the loop does the rounds of j and one more. -/
theorem ecMulIsDoubleAndAdd : Obligations.EcMulIsDoubleAndAdd :=
  ⟨ecMul_zero, ecMul_one, fun k _ => ecMul_inf k, fun P _ hj => ⟨ecMul_bit P false hj, ecMul_bit P true hj⟩⟩

/-- Settles O26: both sides stand for (j + k)·P in the group of the curve. -/
theorem ecMulAddsScalars : Obligations.EcMulAddsScalars := by
  have := curveP_fact
  intro P j k hv hjk
  obtain ⟨Q, hQ⟩ := (valid_iff_represents P).mp hv
  have hadd := represents_add (represents_mul hQ j (by omega)) (represents_mul hQ k (by omega))
  rw [← add_nsmul] at hadd
  exact ⟨(represents_mul hQ (j + k) hjk).unique hadd, ecMul_valid hv hjk⟩

end Sys2Proof.Proofs
end

section
/-! PADD, PDBL and PMUL: the checks in their order, then the group function (41_point_math.md R134 to R136). -/

namespace Sys2Proof.Proofs
open Sys2Proof.Machine Sys2Proof.Laws

/-! ## The outcome by the point checks -/

theorem paddResult_of_errorA {o : OperandFile} {c : ErrorCode} (hA : checkPoint (operandA o) = .error c) :
    paddResult o = .error c := by
  simp only [paddResult, hA]

theorem paddResult_of_errorB {o : OperandFile} {c : ErrorCode} (hA : checkPoint (operandA o) = .ok ())
    (hB : checkPoint (operandB o) = .error c) : paddResult o = .error c := by
  simp only [paddResult, hA, hB]

theorem paddResult_of_ok {o : OperandFile} (hA : checkPoint (operandA o) = .ok ())
    (hB : checkPoint (operandB o) = .ok ()) : paddResult o = .ok (ecAdd (operandA o) (operandB o)) := by
  simp only [paddResult, hA, hB]

theorem pdblResult_of_error {o : OperandFile} {c : ErrorCode} (hA : checkPoint (operandA o) = .error c) :
    pdblResult o = .error c := by
  simp only [pdblResult, hA]

theorem pdblResult_of_ok {o : OperandFile} (hA : checkPoint (operandA o) = .ok ()) :
    pdblResult o = .ok (ecDouble (operandA o)) := by
  simp only [pdblResult, hA]

theorem pmulResult_of_error {o : OperandFile} {c : ErrorCode} (hA : checkPoint (operandA o) = .error c) :
    pmulResult o = .error c := by
  simp only [pmulResult, hA]

theorem pmulResult_of_ok {o : OperandFile} (hA : checkPoint (operandA o) = .ok ()) :
    pmulResult o = .ok (ecMul (operandA o) o.k.toNat) := by
  simp only [pmulResult, hA]

/-! ## The completion by the outcome (40_command_execution.md R115) -/

theorem failedAs_of_error {r : CmdResult} {c : ErrorCode} (h : r = .error c) (s : State) :
    failedAs s (complete r s) c.code := h ▸ failedAs_complete c s

theorem succeededAs_of_valid {r : CmdResult} {q : Point} (h : r = .ok q) (hq : q.valid = true) (s : State) :
    succeededAs s (complete r s) q := h ▸ succeededAs_complete (fits_of_valid hq) s

/-! ## The commands -/

/-- Settles O22: each clause fixes the outcome of the checks, and with it that of the command. -/
theorem paddChecksThenAdds : Obligations.PaddChecksThenAdds := by
  refine ⟨by decide, fun s => ⟨_, exec_eq .padd s, complete_busy _ _, complete_done _ _, complete_doneip _ _,
    fun hA => ?_, fun hA hA' => ?_, fun hA hA' hB => ?_, fun hA hA' hB hB' => ?_, fun hA hA' hB hB' => ?_⟩⟩
  · exact failedAs_of_error (paddResult_of_errorA (checkPoint_outOfRange hA)) s
  · exact failedAs_of_error (paddResult_of_errorA (checkPoint_offCurve hA hA')) s
  · exact failedAs_of_error (paddResult_of_errorB (checkPoint_ok hA hA') (checkPoint_outOfRange hB)) s
  · exact failedAs_of_error (paddResult_of_errorB (checkPoint_ok hA hA') (checkPoint_offCurve hB hB')) s
  · have hvalid := ecAdd_valid ((valid_iff _).mpr ⟨hA, hA'⟩) ((valid_iff _).mpr ⟨hB, hB'⟩)
    exact succeededAs_of_valid (paddResult_of_ok (checkPoint_ok hA hA') (checkPoint_ok hB hB')) hvalid s

/-- The double of a valid affine point is affine: its y is not 0 (41_point_math.md R135). -/
theorem ecDouble_ne_inf {P : Point} (hv : P.valid = true) (hP : P ≠ .inf) : ecDouble P ≠ .inf := by
  cases P with
  | inf => exact absurd rfl hP
  | aff x y =>
    rw [ecDouble_aff x (y_ne_zero_of_valid hv)]
    exact Point.noConfusion

theorem operandA_ne_inf {o : OperandFile} (h : o.ainf = false) : operandA o ≠ .inf := by simp [operandA, h]

/-- Settles O23: the check of A fixes the outcome, and the double of an affine point is affine. -/
theorem pdblChecksThenDoubles : Obligations.PdblChecksThenDoubles := by
  refine ⟨by decide, fun s => ⟨_, exec_eq .pdbl s, complete_busy _ _, complete_done _ _, complete_doneip _ _,
    fun hA => ?_, fun hA hA' => ?_, fun hA hA' => ?_⟩⟩
  · exact failedAs_of_error (pdblResult_of_error (checkPoint_outOfRange hA)) s
  · exact failedAs_of_error (pdblResult_of_error (checkPoint_offCurve hA hA')) s
  · have hv := (valid_iff _).mpr ⟨hA, hA'⟩
    have hok := pdblResult_of_ok (checkPoint_ok hA hA')
    refine ⟨succeededAs_of_valid hok (ecDouble_valid hv) s, fun hinf => ?_⟩
    rw [commandResult, hok]
    exact complete_ok_qinf_eq_false (ecDouble_ne_inf hv (operandA_ne_inf hinf)) s

/-- Settles O24: the check of A fixes the outcome, whatever K is. -/
theorem pmulChecksThenMultiplies : Obligations.PmulChecksThenMultiplies := by
  refine ⟨by decide, fun s => ⟨_, exec_eq .pmul s, complete_busy _ _, complete_done _ _, complete_doneip _ _,
    fun hA => ?_, fun hA hA' => ?_, fun hA hA' => ?_⟩⟩
  · exact failedAs_of_error (pmulResult_of_error (checkPoint_outOfRange hA)) s
  · exact failedAs_of_error (pmulResult_of_error (checkPoint_offCurve hA hA')) s
  · have hvalid := ecMul_valid ((valid_iff _).mpr ⟨hA, hA'⟩) s.ops.k.isLt
    exact succeededAs_of_valid (pmulResult_of_ok (checkPoint_ok hA hA')) hvalid s

/-- A result Q that is valid and affine stands in QX and QY, with QY not 0. -/
theorem registers_of_valid_result {t : State} (hq : t.qinf = false) (hv : t.result.valid = true) :
    t.qx.toNat < curveP ∧ 0 < t.qy.toNat ∧ t.qy.toNat < curveP := by
  have hres : t.result = .aff t.qx.toNat t.qy.toNat := by simp [State.result, hq]
  rw [hres] at hv
  obtain ⟨hx, hy, -⟩ := (valid_aff _ _).mp hv
  exact ⟨hx, Nat.pos_of_ne_zero (y_ne_zero_of_valid hv), hy⟩

/-- Settles O25: PDBL returns the double of A (O23), a valid point. -/
theorem pdblOfAffineIsAffine : Obligations.PdblOfAffineIsAffine := by
  intro s hinf hv
  obtain ⟨-, hpdbl⟩ := pdblChecksThenDoubles
  obtain ⟨t, hexec, -, -, -, -, -, hok⟩ := hpdbl s
  obtain ⟨hrange, hcurve⟩ := (valid_iff _).mp hv
  obtain ⟨⟨herr, -, hres, -⟩, hq⟩ := hok hrange hcurve
  have hvalid : t.result.valid = true := hres ▸ ecDouble_valid hv
  obtain ⟨hx, hy0, hy⟩ := registers_of_valid_result (hq hinf) hvalid
  exact ⟨t, hexec, herr, hq hinf, hx, hy0, hy, hvalid⟩

end Sys2Proof.Proofs
end

section
/-! SQRT and DECOMP: the range check, the square root and the choice of parity (42_point_decoder.md R150 to R155). -/

namespace Sys2Proof.Proofs
open Sys2Proof.Machine Sys2Proof.Laws

/-! ## The outcome by the operand -/

theorem sqrtResult_of_le {o : OperandFile} (h : curveP ≤ o.ax.toNat) : sqrtResult o = .error .operandRange :=
  if_pos h

theorem sqrtResult_of_root {o : OperandFile} (h : o.ax.toNat < curveP)
    (hroot : isRoot (sqrtCandidate o.ax.toNat) o.ax.toNat = true) :
    sqrtResult o = .ok (.aff (sqrtCandidate o.ax.toNat) 0) := by
  simp only [sqrtResult, if_neg h.not_ge, if_pos hroot]

theorem sqrtResult_of_not_root {o : OperandFile} (h : o.ax.toNat < curveP)
    (hroot : ¬isRoot (sqrtCandidate o.ax.toNat) o.ax.toNat = true) : sqrtResult o = .error .noSquareRoot := by
  simp only [sqrtResult, if_neg h.not_ge, if_neg hroot]

theorem decompResult_of_le {o : OperandFile} (odd : Nat) (h : curveP ≤ o.ax.toNat) :
    decompResult odd o = .error .operandRange := if_pos h

theorem decompResult_of_lt {o : OperandFile} (odd : Nat) (h : o.ax.toNat < curveP) :
    decompResult odd o = decompress o.ax.toNat (odd == 0) := if_neg h.not_ge

theorem decompResult_of_no_point {o : OperandFile} (odd : Nat) (h : o.ax.toNat < curveP)
    (hn : ¬hasPoint o.ax.toNat) : decompResult odd o = .error .pointNotOnCurve :=
  (decompResult_of_lt odd h).trans (decompress_error hn _)

/-- The even root is wanted exactly when ODD is 0 (42_point_decoder.md R155). -/
theorem mod_two_eq_of_wanted {odd y : Nat} (hodd : odd < 2) (h : (y % 2 == 0) = (odd == 0)) : y % 2 = odd := by
  have hiff : y % 2 = 0 ↔ odd = 0 := by rw [← beq_iff_eq, h, beq_iff_eq]
  omega

theorem decompResult_of_point {o : OperandFile} {odd : Nat} (hodd : odd < 2) (h : o.ax.toNat < curveP)
    (hp : hasPoint o.ax.toNat) : ∃ y, decompResult odd o = .ok (.aff o.ax.toNat y) ∧ y < curveP ∧ y % 2 = odd ∧
      (Point.aff o.ax.toNat y).valid = true := by
  obtain ⟨y, hd, hy, hpar, hon⟩ := decompress_ok hp (odd == 0)
  exact ⟨y, (decompResult_of_lt odd h).trans hd, hy, mod_two_eq_of_wanted hodd hpar, (valid_aff _ _).mpr ⟨h, hy, hon⟩⟩

/-! ## The result registers -/

/-- What the registers of an affine result hold (10_state.md R33). -/
theorem registers_of_result_aff {t : State} {x y : Nat} (h : t.result = .aff x y) :
    t.qx.toNat = x ∧ t.qy.toNat = y ∧ t.qinf = false := by
  cases hq : t.qinf with
  | true => simp [State.result, hq] at h
  | false => simpa [State.result, hq] using h

/-! ## The commands -/

/-- Settles O28: the range of AX and the square of the candidate fix the outcome. -/
theorem sqrtReturnsTheCandidate : Obligations.SqrtReturnsTheCandidate := by
  refine ⟨by decide, fun s => ⟨_, exec_eq .sqrt s, complete_busy _ _, complete_done _ _, complete_doneip _ _,
    fun hle => failedAs_of_error (sqrtResult_of_le hle) s, fun hlt c hc => ?_⟩⟩
  rw [← sqrtCandidate_eq] at hc
  subst hc
  have hiff := isRoot_iff (sqrtCandidate s.ops.ax.toNat) s.ops.ax.toNat
  refine ⟨fun hsq => ?_, fun hsq => failedAs_of_error (sqrtResult_of_not_root hlt (mt hiff.mp hsq)) s⟩
  have hok := sqrtResult_of_root hlt (hiff.mpr hsq)
  have hfits : fits (.aff (sqrtCandidate s.ops.ax.toNat) 0) :=
    fits_of_inRange (commandResult_inRange (i := .sqrt) hok)
  rw [commandResult, hok]
  exact succeededAs_complete hfits s

/-- Settles O29: the candidate, which decides SQRT (O28), is a root if there is one, since p ≡ 3 (mod 4). -/
theorem sqrtFindsEveryRoot : Obligations.SqrtFindsEveryRoot := by
  intro s hlt
  obtain ⟨-, hsqrt⟩ := sqrtReturnsTheCandidate
  obtain ⟨t, hexec, -, -, -, -, hcandidate⟩ := hsqrt s
  obtain ⟨hok, hfail⟩ := hcandidate hlt _ (sqrtCandidate_eq _)
  refine ⟨t, hexec, fun hroot => ?_, fun hnone => hfail fun hsq => hnone ⟨_, hsq⟩⟩
  have hsq := sqrtCandidate_sq hroot
  obtain ⟨herr, hcode, hres, -⟩ := hok hsq
  obtain ⟨hx, hy, hinf⟩ := registers_of_result_aff hres
  rw [hx]
  exact ⟨herr, hcode, sqrtCandidate_lt _, hsq, BitVec.eq_of_toNat_eq hy, hinf⟩

/-- Settles O30: the range of AX and whether it has a point fix the outcome. -/
theorem decompReturnsTheWantedPoint : Obligations.DecompReturnsTheWantedPoint := by
  refine ⟨by decide, by decide, fun s odd hodd => ⟨_, exec_eq (.decomp odd) s, complete_busy _ _, complete_done _ _,
    complete_doneip _ _, fun hle => ?_, fun hlt hn => ?_, fun hlt hp => ?_⟩⟩
  · exact failedAs_of_error (decompResult_of_le odd hle) s
  · exact failedAs_of_error (decompResult_of_no_point odd hlt hn) s
  · obtain ⟨y, hok, hy, hpar, hv⟩ := decompResult_of_point hodd hlt hp
    exact ⟨y, succeededAs_of_valid hok hv s, hy, hpar, hv⟩

/-- Settles O31: the results of the two parities (O30) are different points of one x, so their y add up to p. -/
theorem decompParitiesAreNegatives : Obligations.DecompParitiesAreNegatives := by
  intro s hlt hp
  obtain ⟨-, -, hdecomp⟩ := decompReturnsTheWantedPoint
  obtain ⟨t0, hexec0, -, -, -, -, -, hok0⟩ := hdecomp s 0 (by decide)
  obtain ⟨t1, hexec1, -, -, -, -, -, hok1⟩ := hdecomp s 1 (by decide)
  obtain ⟨y0, ⟨-, -, hres0, -⟩, hy0, hpar0, hv0⟩ := hok0 hlt hp
  obtain ⟨y1, ⟨-, -, hres1, -⟩, hy1, hpar1, hv1⟩ := hok1 hlt hp
  obtain ⟨hqx0, hqy0, -⟩ := registers_of_result_aff hres0
  obtain ⟨hqx1, hqy1, -⟩ := registers_of_result_aff hres1
  have hneg : y1 = curveP - y0 := eq_sub_of_valid_same_x hv0 hv1 (by omega)
  have hecNeg : ecNeg (.aff s.ops.ax.toNat y0) = .aff s.ops.ax.toNat y1 := by
    rw [ecNeg, ← hneg, Nat.mod_eq_of_lt hy1]
  refine ⟨t0, t1, hexec0, hexec1, BitVec.eq_of_toNat_eq hqx0, BitVec.eq_of_toNat_eq hqx1, ?_⟩
  rw [hqy0, hqy1, hres0, hres1]
  exact ⟨by omega, hpar0, hpar1, hecNeg⟩

end Sys2Proof.Proofs
end

section
/-! RECOVER and RECOVERV: the steps that can fail in their order, the recovered key, and recovery as the inverse of
signing (43_signature_recovery.md R170 to R177, 95_test_vectors.md T6). -/

namespace Sys2Proof.Proofs
open Sys2Proof.Machine Sys2Proof.Laws

/-! ## The outcome of RECOVER by its steps (43_signature_recovery.md R170) -/

theorem recoverResult_of_two_le {recid : Nat} (h : 2 ≤ recid) (o : OperandFile) :
    recoverResult recid o = .error .invalidRecoveryId := if_pos (by omega)

theorem recoverResult_of_le {recid : Nat} (h : recid < 2) {o : OperandFile} (hr : curveP ≤ o.sigR.toNat) :
    recoverResult recid o = .error .recoveryFailed := by
  rw [recoverResult, recoverPublicKey, if_neg (by omega), if_pos hr]

theorem recoverResult_of_decompress_error {recid : Nat} (h : recid < 2) {o : OperandFile}
    (hr : o.sigR.toNat < curveP) {c : ErrorCode} (hd : decompress o.sigR.toNat (recid % 2 == 0) = .error c) :
    recoverResult recid o = .error .recoveryFailed := by
  rw [recoverResult, recoverPublicKey, if_neg (by omega), if_neg hr.not_ge, hd]

theorem recoverResult_of_decompress_ok {recid : Nat} (h : recid < 2) {o : OperandFile}
    (hr : o.sigR.toNat < curveP) {R : Point} (hd : decompress o.sigR.toNat (recid % 2 == 0) = .ok R) :
    recoverResult recid o = recoverFrom R o.sigR.toNat o.sigS.toNat o.digest.toNat := by
  rw [recoverResult, recoverPublicKey, if_neg (by omega), if_neg hr.not_ge, hd]

theorem recoverResult_of_no_point {recid : Nat} (h : recid < 2) {o : OperandFile} (hr : o.sigR.toNat < curveP)
    (hn : ¬hasPoint o.sigR.toNat) : recoverResult recid o = .error .recoveryFailed :=
  recoverResult_of_decompress_error h hr (decompress_error hn _)

/-- Decompression with the parity of y finds the point (x, y): no other point of x has that parity. -/
theorem decompress_of_valid {x y : Nat} (h : (Point.aff x y).valid = true) :
    decompress x (y % 2 == 0) = .ok (.aff x y) := by
  obtain ⟨-, hy, hon⟩ := (valid_aff x y).mp h
  have hp : hasPoint x := ⟨y, of_decide_eq_true (onCurve_eq x y ▸ hon)⟩
  obtain ⟨y', hd, hy', hpar, hon'⟩ := decompress_ok hp (y % 2 == 0)
  have hyy : y' = y := parity_unique hy' hy hon' hon (mod_two_eq_of_wanted (Nat.mod_lt y two_pos) hpar)
  rw [hd, hyy]

/-- Past step 3 the outcome is that of the steps after R, the point of x-coordinate r and the parity of the recovery
id. -/
theorem recoverResult_of_valid {o : OperandFile} {y : Nat} (h : (Point.aff o.sigR.toNat y).valid = true) :
    recoverResult (y % 2) o =
      recoverFrom (.aff o.sigR.toNat y) o.sigR.toNat o.sigS.toNat o.digest.toNat := by
  obtain ⟨hr, -, -⟩ := (valid_aff _ y).mp h
  exact recoverResult_of_decompress_ok (Nat.mod_lt y two_pos) hr (by rw [Nat.mod_mod, decompress_of_valid h])

theorem recoverFrom_of_order {r : Nat} (h : r % curveN = 0) (R : Point) (s e : Nat) :
    recoverFrom R r s e = .error .invalidSignature := if_pos h

theorem recoverFrom_of_inf {R : Point} {r s e : Nat} (h : r % curveN ≠ 0) (hQ : recoveredKey R r s e = .inf) :
    recoverFrom R r s e = .error .recoveryFailed := by
  rw [recoverFrom, if_neg h, hQ]

theorem recoverFrom_of_ne_inf {R : Point} {r s e : Nat} (h : r % curveN ≠ 0) (hQ : recoveredKey R r s e ≠ .inf) :
    recoverFrom R r s e = .ok (recoveredKey R r s e) := by
  rw [recoverFrom, if_neg h]
  cases hk : recoveredKey R r s e with
  | inf => exact absurd hk hQ
  | aff x y => rfl

/-- Each of the recovery ids 0 and 1 selects a point of an x that has one (42_point_decoder.md R152). -/
theorem exists_valid_of_hasPoint {x recid : Nat} (hrecid : recid < 2) (hx : x < curveP) (h : hasPoint x) :
    ∃ y, y % 2 = recid ∧ (Point.aff x y).valid = true := by
  obtain ⟨y, -, hy, hpar, hon⟩ := decompress_ok h (recid == 0)
  exact ⟨y, mod_two_eq_of_wanted hrecid hpar, (valid_aff x y).mpr ⟨hx, hy, hon⟩⟩

theorem recoverResult_of_order {recid : Nat} (hrecid : recid < 2) {o : OperandFile} (hr : o.sigR.toNat < curveP)
    (hp : hasPoint o.sigR.toNat) (hn : o.sigR.toNat % curveN = 0) :
    recoverResult recid o = .error .invalidSignature := by
  obtain ⟨y, rfl, hv⟩ := exists_valid_of_hasPoint hrecid hr hp
  rw [recoverResult_of_valid hv, recoverFrom_of_order hn]

/-! ## RECOVER: the first failing step, and the recovered key -/

/-- Settles O32: each clause is the first failing step, which fixes the outcome. -/
theorem recoverStopsAtTheFirstFailure : Obligations.RecoverStopsAtTheFirstFailure := by
  refine fun s recid => ⟨_, exec_eq (.recover recid) s, fun hid => ?_, fun hid hle => ?_, fun hid hlt hn => ?_,
    fun hid hlt hp hord => ?_⟩
  · exact failedAs_of_error (recoverResult_of_two_le hid s.ops) s
  · exact failedAs_of_error (recoverResult_of_le hid hle) s
  · exact failedAs_of_error (recoverResult_of_no_point hid hlt hn) s
  · exact failedAs_of_error (recoverResult_of_order hid hlt hp hord) s

/-- Settles O33: u is the inverse that step 7 computes, so Q is the recovered key, and only INF is refused. -/
theorem recoverReturnsTheKey : Obligations.RecoverReturnsTheKey := by
  rintro s _ y u Q - hr hy hcurve rfl hn - hu hinv hQ
  have hv : (Point.aff s.ops.sigR.toNat y).valid = true :=
    (valid_aff _ y).mpr ⟨hr, hy, by rw [onCurve_eq]; exact decide_eq_true hcurve⟩
  rw [eq_invN hn hu hinv, ← recoveredKey] at hQ
  subst hQ
  refine ⟨_, exec_eq (.recover (y % 2)) s, fun hinf => ?_, fun hne => ?_⟩
  · exact failedAs_of_error ((recoverResult_of_valid hv).trans (recoverFrom_of_inf hn hinf)) s
  · exact succeededAs_of_valid ((recoverResult_of_valid hv).trans (recoverFrom_of_ne_inf hn hne))
      (recoveredKey_valid hv s.ops.sigS.isLt hn) s

/-! ## RECOVER: INVALID_SIGNATURE (43_signature_recovery.md R173) -/

/-- 7 has no square root modulo p, so no point has x = 0. -/
theorem not_hasPoint_zero : ¬hasPoint 0 := fun h => absurd (sqrtCandidate_sq h) (by decide +kernel)

theorem hasPoint_curveN : hasPoint curveN :=
  ⟨0x98f66641cb0ae1776b463ebdee3d77fe2658f021db48e2c8ac7ab4c92f83621e, by decide⟩

/-- Below p the only multiples of n are 0 and n, and 0 is no x-coordinate. -/
theorem eq_curveN_of_order {r : Nat} (hr : r < curveP) (hp : hasPoint r) (hn : r % curveN = 0) : r = curveN := by
  have hlt : curveP < 2 * curveN := by decide
  have h0 : r ≠ 0 := by rintro rfl; exact not_hasPoint_zero hp
  obtain ⟨k, rfl⟩ := Nat.dvd_of_mod_eq_zero hn
  have hk : k < 2 := by
    by_contra hge
    have := Nat.mul_le_mul_left curveN (Nat.le_of_not_lt hge)
    omega
  interval_cases k
  · exact absurd rfl h0
  · exact mul_one _

/-- The steps after r mod n ≠ 0 do not report INVALID_SIGNATURE. -/
theorem recoverFrom_ne_invalidSignature {r : Nat} (hn : r % curveN ≠ 0) (R : Point) (s e : Nat) :
    recoverFrom R r s e ≠ .error .invalidSignature := by
  by_cases hQ : recoveredKey R r s e = .inf
  · simp [recoverFrom_of_inf hn hQ]
  · simp [recoverFrom_of_ne_inf hn hQ]

theorem eq_curveN_of_invalidSignature {recid : Nat} (hid : recid < 2) {o : OperandFile}
    (h : recoverResult recid o = .error .invalidSignature) : o.sigR.toNat = curveN := by
  by_cases hr : curveP ≤ o.sigR.toNat
  · rw [recoverResult_of_le hid hr] at h; cases h
  rw [not_le] at hr
  by_cases hp : hasPoint o.sigR.toNat
  · obtain ⟨y, rfl, hv⟩ := exists_valid_of_hasPoint hid hr hp
    rw [recoverResult_of_valid hv] at h
    exact eq_curveN_of_order hr hp (by_contra fun hn => recoverFrom_ne_invalidSignature hn _ _ _ h)
  · rw [recoverResult_of_no_point hid hr hp] at h; cases h

theorem errorCode_injective : Function.Injective ErrorCode.code := by
  intro c c'
  cases c <;> cases c' <;> decide

/-- The code in STATUS tells the outcome of a command that started without an error. -/
theorem eq_error_of_complete {r : CmdResult} {s : State} (hs : s.err = false) {c : ErrorCode}
    (herr : (complete r s).err = true) (hcode : (complete r s).errcode = c.code) : r = .error c := by
  cases r with
  | ok q => rw [complete_ok_err, hs] at herr; cases herr
  | error c' => rw [errorCode_injective hcode]

/-- Settles O34: past the range check and the decoding, r mod n = 0 leaves only r = n; x = 0 has no point. -/
theorem invalidSignatureOnlyForOrder : Obligations.InvalidSignatureOnlyForOrder := by
  intro s recid hid herr
  refine ⟨_, exec_eq (.recover recid) s, fun he hc => ?_, fun hr => ?_, fun hr => ?_⟩
  · exact eq_curveN_of_invalidSignature hid (eq_error_of_complete herr he hc)
  · exact failedAs_of_error (recoverResult_of_order hid (hr ▸ curveN_lt_curveP) (hr ▸ hasPoint_curveN)
      (by rw [hr, Nat.mod_self])) s
  · exact failedAs_of_error (recoverResult_of_no_point hid (hr ▸ curveP_pos) (hr ▸ not_hasPoint_zero)) s

/-! ## RECOVERV (43_signature_recovery.md R176, R177) -/

theorem recovervResult_of_normalizeV_ok {v recid : Nat} (h : normalizeV v = .ok recid) (o : OperandFile) :
    recovervResult v o = recoverResult recid o := by
  rw [recovervResult, h, recoverResult]

theorem recovervResult_of_normalizeV_error {v : Nat} {c : ErrorCode} (h : normalizeV v = .error c)
    (o : OperandFile) : recovervResult v o = .error c := by
  rw [recovervResult, h]

theorem normalizeV_error {v : Nat} (h0 : v ≠ 0) (h1 : v ≠ 1) (h27 : v ≠ 27) (h28 : v ≠ 28) :
    normalizeV v = .error .invalidSignature := by
  have hshift : ¬(v = 27 ∨ v = 28) := by omega
  have hsum : ¬(v + 27 = 27 ∨ v + 27 = 28) := by omega
  simp only [normalizeV, if_neg hshift, if_neg hsum]

/-- One recovery id, one completion: RECOVERV v is then RECOVER of that id in every state. -/
theorem exec_recoverv_of_normalizeV_ok {v recid : Nat} (h : normalizeV v = .ok recid) (s : State) :
    exec (.recoverv v) s = exec (.recover recid) s := by
  simp only [exec_eq, commandResult, recovervResult_of_normalizeV_ok h]

/-- Settles O35: by the recovery id that v is normalised to, or by its being refused. -/
theorem recovervNormalisesV : Obligations.RecovervNormalisesV := by
  refine fun s v hv => ⟨encode_recoverv hv, _, exec_eq (.recoverv v) s, fun h => ?_, fun h => ?_,
    fun h0 h1 h27 h28 => ?_⟩
  · have hid : normalizeV v = .ok 0 := by rcases h with rfl | rfl <;> rfl
    rw [← exec_recoverv_of_normalizeV_ok hid, exec_eq]
  · have hid : normalizeV v = .ok 1 := by rcases h with rfl | rfl <;> rfl
    rw [← exec_recoverv_of_normalizeV_ok hid, exec_eq]
  · exact failedAs_of_error (recovervResult_of_normalizeV_error (normalizeV_error h0 h1 h27 h28) s.ops) s

/-! ## Recovery undoes signing (95_test_vectors.md T6) -/

theorem invN_spec {r : Nat} (hr : r % curveN ≠ 0) : invN r < curveN ∧ r * invN r % curveN = 1 :=
  (invMod_spec curveN r curveN_prime (curveN_lt_curveP.trans curveP_lt) hr).2

section
variable [Fact curveP.Prime]

theorem smul_congr {j k : Nat} (h : j % curveN = k % curveN) (Q : secp.Point) : j • Q = k • Q := by
  rw [← smul_mod j, h, smul_mod]

/-- The recovered key in the group of the curve: r⁻¹·(s·R - e·G) (43_signature_recovery.md R174). -/
theorem represents_recoveredKey {R : Point} {Q : secp.Point} (h : Represents R Q) {r s : Nat} (e : Nat)
    (hs : s < 2 ^ 256) (hr : r % curveN ≠ 0) :
    Represents (recoveredKey R r s e) (invN r • (s • Q - e • G)) := by
  have hn : curveN < 2 ^ 256 := curveN_lt_curveP.trans curveP_lt
  obtain ⟨hu, -⟩ := invN_spec hr
  have heG := represents_neg (represents_mul represents_G (e % curveN) ((Nat.mod_lt _ curveN_pos).trans hn))
  rw [smul_mod] at heG
  have hsum := represents_add (represents_mul h s hs) heG
  rw [← sub_eq_add_neg] at hsum
  exact represents_mul hsum _ (hu.trans hn)

/-- The signing equation s·k ≡ e + r·d cancels: r⁻¹·(s·k·G - e·G) is d·G. -/
theorem smul_signature {d k r s e u : Nat} (hsig : s * k % curveN = (e + r * d) % curveN)
    (hu : r * u % curveN = 1) (Q : secp.Point) : u • (s • k • Q - e • Q) = d • Q := by
  have hdiff : s • k • Q - e • Q = (r * d) • Q := by
    rw [← mul_nsmul', smul_congr hsig, add_nsmul, add_sub_cancel_left]
  have hcancel : u * (r * d) % curveN = d % curveN := by
    rw [show u * (r * d) = r * u * d by ring, Nat.mul_mod, hu, one_mul, Nat.mod_mod]
  rw [hdiff, ← mul_nsmul', smul_congr hcancel]

end

/-- For a signature made with the private key d and the nonce k, the recovered key is d·G. -/
theorem recoveredKey_of_signature {d k r s e : Nat} (hd : d < 2 ^ 256) (hk : k < 2 ^ 256) (hs : s < 2 ^ 256)
    (hr : r % curveN ≠ 0) (hsig : s * k % curveN = (e + r * d) % curveN) :
    recoveredKey (ecMul basePoint k) r s e = ecMul basePoint d := by
  have := curveP_fact
  obtain ⟨-, hu⟩ := invN_spec hr
  have hkey := represents_recoveredKey (represents_mul represents_G k hk) e hs hr
  rw [smul_signature hsig hu] at hkey
  exact hkey.unique (represents_mul represents_G d hd)

/-- Settles O36: RECOVER decodes k·G from its x-coordinate and parity, and the recovered key is d·G, which is not INF
since 0 < d < n. -/
theorem recoverInvertsSigning : Obligations.RecoverInvertsSigning := by
  intro st d k y hd0 hdn hk hR hr0 hrn hsig
  have hn : curveN < 2 ^ 256 := curveN_lt_curveP.trans curveP_lt
  have hr : st.ops.sigR.toNat % curveN ≠ 0 := by rw [Nat.mod_eq_of_lt hrn]; exact hr0.ne'
  have hv : (Point.aff st.ops.sigR.toNat y).valid = true := hR ▸ ecMul_valid basePoint_valid hk
  have hkey := recoveredKey_of_signature (hdn.trans hn) hk st.ops.sigS.isLt hr hsig
  rw [hR] at hkey
  obtain ⟨-, -, hleast⟩ := hasOrder_curveN basePoint_valid Point.noConfusion
  have hne : ecMul basePoint d ≠ .inf := hleast d hd0 hdn
  have hok : recoverResult (y % 2) st.ops = .ok (ecMul basePoint d) := by
    rw [recoverResult_of_valid hv, recoverFrom_of_ne_inf hr (hkey ▸ hne), hkey]
  have hvalid := ecMul_valid basePoint_valid (hdn.trans hn)
  refine ⟨_, exec_eq (.recover (y % 2)) st, succeededAs_of_valid hok hvalid st, ?_⟩
  rw [commandResult, hok]
  exact complete_ok_qinf_eq_false hne st

end Sys2Proof.Proofs
end

section
/-! The error codes: what a failed command records, and which codes each command can fail with
(60_exceptions.md R201 to R203). -/

namespace Sys2Proof.Proofs
open Sys2Proof.Machine Sys2Proof.Laws

/-- Settles O12: `complete` records a failure in ERR and ERRCODE alone, and a success leaves both. -/
theorem failedCommandKeepsTheResult : Obligations.FailedCommandKeepsTheResult := by
  intro i s hs
  refine ⟨_, exec_eq i s, ?_⟩
  cases commandResult i s.ops with
  | error c =>
    refine ⟨fun _ => ⟨errorCode_ne_zero c, rfl⟩, fun he => ?_⟩
    rw [complete_error_err] at he
    cases he
  | ok q =>
    refine ⟨fun he => ?_, fun _ => complete_ok_errcode q s⟩
    rw [complete_ok_err, hs] at he
    cases he

/-! ## The errors of the point commands -/

theorem checkPoint_error_cases {P : Point} {c : ErrorCode} (h : checkPoint P = .error c) :
    c = .operandRange ∨ c = .pointNotOnCurve := by
  rcases checkPoint_cases P with ⟨-, e⟩ | ⟨-, e | e⟩ <;> rw [e] at h <;> cases h
  · exact .inl rfl
  · exact .inr rfl

theorem paddResult_error_cases {o : OperandFile} {c : ErrorCode} (h : paddResult o = .error c) :
    c = .operandRange ∨ c = .pointNotOnCurve := by
  cases hA : checkPoint (operandA o) with
  | error cA => rw [paddResult_of_errorA hA] at h; cases h; exact checkPoint_error_cases hA
  | ok =>
    cases hB : checkPoint (operandB o) with
    | error cB => rw [paddResult_of_errorB hA hB] at h; cases h; exact checkPoint_error_cases hB
    | ok => rw [paddResult_of_ok hA hB] at h; cases h

theorem pdblResult_error_cases {o : OperandFile} {c : ErrorCode} (h : pdblResult o = .error c) :
    c = .operandRange ∨ c = .pointNotOnCurve := by
  cases hA : checkPoint (operandA o) with
  | error cA => rw [pdblResult_of_error hA] at h; cases h; exact checkPoint_error_cases hA
  | ok => rw [pdblResult_of_ok hA] at h; cases h

theorem pmulResult_error_cases {o : OperandFile} {c : ErrorCode} (h : pmulResult o = .error c) :
    c = .operandRange ∨ c = .pointNotOnCurve := by
  cases hA : checkPoint (operandA o) with
  | error cA => rw [pmulResult_of_error hA] at h; cases h; exact checkPoint_error_cases hA
  | ok => rw [pmulResult_of_ok hA] at h; cases h

/-! ## The errors of SQRT and DECOMP -/

theorem sqrtResult_error_cases {o : OperandFile} {c : ErrorCode} (h : sqrtResult o = .error c) :
    c = .operandRange ∨ c = .noSquareRoot := by
  rcases le_or_gt curveP o.ax.toNat with hle | hlt
  · rw [sqrtResult_of_le hle] at h; cases h; exact .inl rfl
  by_cases hroot : isRoot (sqrtCandidate o.ax.toNat) o.ax.toNat = true
  · rw [sqrtResult_of_root hlt hroot] at h; cases h
  · rw [sqrtResult_of_not_root hlt hroot] at h; cases h; exact .inr rfl

theorem eq_pointNotOnCurve_of_decompress_error {x : Nat} {wantEven : Bool} {c : ErrorCode}
    (h : decompress x wantEven = .error c) : c = .pointNotOnCurve := by
  by_cases hp : hasPoint x
  · obtain ⟨y, hd, -⟩ := decompress_ok hp wantEven
    rw [hd] at h; cases h
  · rw [decompress_error hp] at h; cases h; rfl

theorem decompResult_error_cases {odd : Nat} {o : OperandFile} {c : ErrorCode} (h : decompResult odd o = .error c) :
    c = .operandRange ∨ c = .pointNotOnCurve := by
  rcases le_or_gt curveP o.ax.toNat with hle | hlt
  · rw [decompResult_of_le odd hle] at h; cases h; exact .inl rfl
  · exact .inr (eq_pointNotOnCurve_of_decompress_error (decompResult_of_lt odd hlt ▸ h))

/-! ## The errors of RECOVER and RECOVERV -/

theorem recoverFrom_error_cases {R : Point} {r s e : Nat} {c : ErrorCode} (h : recoverFrom R r s e = .error c) :
    c = .invalidSignature ∨ c = .recoveryFailed := by
  by_cases hn : r % curveN = 0
  · rw [recoverFrom_of_order hn] at h; cases h; exact .inl rfl
  by_cases hQ : recoveredKey R r s e = .inf
  · rw [recoverFrom_of_inf hn hQ] at h; cases h; exact .inr rfl
  · rw [recoverFrom_of_ne_inf hn hQ] at h; cases h

/-- With a recovery id that step 1 admits, a failed decompression is reported as RECOVERY_FAILED
(60_exceptions.md R203). -/
theorem recoverResult_error_cases_of_lt {recid : Nat} (hid : recid < 2) {o : OperandFile} {c : ErrorCode}
    (h : recoverResult recid o = .error c) : c = .invalidSignature ∨ c = .recoveryFailed := by
  rcases le_or_gt curveP o.sigR.toNat with hle | hlt
  · rw [recoverResult_of_le hid hle] at h; cases h; exact .inr rfl
  cases hd : decompress o.sigR.toNat (recid % 2 == 0) with
  | error c' => rw [recoverResult_of_decompress_error hid hlt hd] at h; cases h; exact .inr rfl
  | ok R => exact recoverFrom_error_cases (recoverResult_of_decompress_ok hid hlt hd ▸ h)

theorem recoverResult_error_cases {recid : Nat} {o : OperandFile} {c : ErrorCode}
    (h : recoverResult recid o = .error c) :
    c = .invalidSignature ∨ c = .invalidRecoveryId ∨ c = .recoveryFailed := by
  rcases lt_or_ge recid 2 with hid | hid
  · exact (recoverResult_error_cases_of_lt hid h).imp_right .inr
  · rw [recoverResult_of_two_le hid] at h; cases h; exact .inr (.inl rfl)

/-- `normalizeV` answers with a recovery id that step 1 admits, or refuses v (43_signature_recovery.md R176). -/
theorem normalizeV_cases (v : Nat) :
    (∃ recid < 2, normalizeV v = .ok recid) ∨ normalizeV v = .error .invalidSignature := by
  by_cases hv : v = 0 ∨ v = 1 ∨ v = 27 ∨ v = 28
  · left
    rcases hv with rfl | rfl | rfl | rfl
    · exact ⟨0, by decide, rfl⟩
    · exact ⟨1, by decide, rfl⟩
    · exact ⟨0, by decide, rfl⟩
    · exact ⟨1, by decide, rfl⟩
  · simp only [not_or] at hv
    obtain ⟨h0, h1, h27, h28⟩ := hv
    exact .inr (normalizeV_error h0 h1 h27 h28)

theorem recovervResult_error_cases {v : Nat} {o : OperandFile} {c : ErrorCode} (h : recovervResult v o = .error c) :
    c = .invalidSignature ∨ c = .recoveryFailed := by
  rcases normalizeV_cases v with ⟨recid, hid, hv⟩ | hv
  · exact recoverResult_error_cases_of_lt hid (recovervResult_of_normalizeV_ok hv o ▸ h)
  · rw [recovervResult_of_normalizeV_error hv] at h; cases h; exact .inl rfl

/-! ## The codes -/

/-- A command that started without an error and records one has failed, with the code of its error. -/
theorem exists_error_of_complete {r : CmdResult} {s : State} (hs : s.err = false) (he : (complete r s).err = true) :
    ∃ c, r = .error c ∧ (complete r s).errcode = c.code := by
  cases r with
  | ok q => rw [complete_ok_err, hs] at he; cases he
  | error c => exact ⟨c, rfl, rfl⟩

/-- Settles O14: the errors of each command's outcome, read as their codes. -/
theorem errorCodesByCommand : Obligations.ErrorCodesByCommand := by
  intro i s hs
  refine ⟨_, exec_eq i s, fun he => ?_⟩
  obtain ⟨c, hc, hcode⟩ := exists_error_of_complete hs he
  rw [hcode]
  have code {d : ErrorCode} : c = d → c.code = d.code := congrArg ErrorCode.code
  cases i with
  | padd => exact (paddResult_error_cases hc).imp code code
  | pdbl => exact (pdblResult_error_cases hc).imp code code
  | pmul => exact (pmulResult_error_cases hc).imp code code
  | sqrt => exact (sqrtResult_error_cases hc).imp code code
  | decomp odd => exact (decompResult_error_cases hc).imp code code
  | recover recid => exact (recoverResult_error_cases hc).imp code (.imp code code)
  | recoverv v => exact (recovervResult_error_cases hc).imp code code

end Sys2Proof.Proofs
end

section
/-! The interrupt output: what raises it and what lowers it (60_exceptions.md R210). -/

namespace Sys2Proof.Proofs
open Sys2Proof.Machine Sys2Proof.Laws

theorem irq_eq_true_iff (s : State) : s.irq = true ↔ s.doneie = true ∧ s.doneip = true := Bool.and_eq_true_iff

theorem irq_complete (r : CmdResult) (s : State) : (complete r s).irq = s.doneie := by simp [State.irq]

theorem irq_busWrite_irqen (v : Word32) (s : State) : (busWrite 0x010 v s).irq = (v.getLsbD 0 && s.doneip) := by
  rw [busWrite_irqen, State.irq]

theorem irq_busWrite_irqpend (v : Word32) (s : State) : (busWrite 0x014 v s).irq = (s.irq && !v.getLsbD 0) := by
  rw [busWrite_irqpend_eq, State.irq, State.irq, Bool.and_assoc]

theorem irq_busWrite_cmd (v : Word32) (s : State) : (busWrite 0x008 v s).irq = s.irq := by
  rw [busWrite_cmd]
  split <;> rfl

/-- No write sets DONEIP (10_state.md R28). -/
theorem busWrite_doneip_eq_false (off : Nat) (v : Word32) {s : State} (h : s.doneip = false) :
    (busWrite off v s).doneip = false := by
  rcases busWrite_cases off v s with e | ⟨-, e⟩ | ⟨-, e⟩ | e | e | e | ⟨-, o, e⟩ <;> simp [e, h]

/-- A step leaves DONEIP clear unless it completes a command. -/
theorem step_doneip_cases {s t : State} (hstep : step s = .next t) (h : s.doneip = false) :
    t.doneip = false ∨ (s.busy = true ∧ s.remaining ≤ 1 ∧ t.busy = false ∧ t.done = true) := by
  rcases step_cases hstep with ⟨-, es, rfl⟩ | ⟨es, -, rfl⟩ | ⟨-, es, rfl⟩ | ⟨-, -, -, es, rfl⟩ |
    ⟨-, hb, hr, es, rfl⟩ | ⟨-, es, addr, off, v, -, -, -, rfl⟩ | ⟨-, es, vals, rfl⟩
  · exact .inl h
  · exact .inl rfl
  · exact .inl h
  · exact .inl h
  · exact .inr ⟨hb, hr, complete_busy _ _, complete_done _ _⟩
  · exact .inl (busWrite_doneip_eq_false off v h)
  · exact .inl h

/-- Settles O55: IRQ is read off DONEIE and DONEIP after each of the listed events, and of the cases of a step only a
completion sets DONEIP. -/
theorem interruptOutput : Obligations.InterruptOutput := by
  refine ⟨irq_eq_true_iff, fun s rest h => ⟨_, step_eq_complete h, complete_doneip _ _, irq_complete _ _⟩,
    fun s t hstep hclear hset => ?_, fun s => ⟨?_, ?_, ?_, ?_⟩,
    fun s w => ⟨busWrite_cmd_doneip w s, irq_busWrite_cmd w s⟩, fun s => ⟨rfl, rfl⟩⟩
  · rcases step_doneip_cases hstep hclear with h | h
    · rw [h] at hset; cases hset
    · exact h
  · simp [irq_busWrite_irqen]
  · simp [irq_busWrite_irqen]
  · simp [irq_busWrite_irqpend]
  · simp [irq_busWrite_irqpend]

end Sys2Proof.Proofs
end

section
/-! The command in flight: what can happen around it, and its completion (20_memory.md R58, R59;
70_reset_and_hazards.md R247). -/

namespace Sys2Proof.Proofs
open Sys2Proof.Machine Sys2Proof.Laws

/-! ## What the command in flight depends on -/

/-- The state with the fields that can change while the command goes on set to 0: left are the latched word, the
operands, BUSY, DONE, ERR, the result registers and the level of the reset input (20_memory.md R58, R59). -/
def commandPart (s : State) : State :=
  { s with werr := false, doneie := false, doneip := false, remaining := 0, events := [], hostVals := [] }

/-- States that agree on the command in flight agree on every field of it. -/
theorem eq_of_commandPart {α : Type} (f : State → α) {s t : State} (h : commandPart t = commandPart s)
    (hf : ∀ u, f (commandPart u) = f u := by exact fun _ => rfl) : f t = f s := by
  rw [← hf t, h, hf]

/-- A completion records an outcome without a look at the other fields. -/
theorem commandPart_complete (r : CmdResult) (s : State) :
    commandPart (complete r s) = commandPart (complete r (commandPart s)) := by
  cases r with
  | error c => rfl
  | ok q => cases q <;> rfl

/-- States that agree on the command in flight complete it alike. -/
theorem commandPart_completion {s t : State} (h : commandPart t = commandPart s) :
    commandPart (complete (wordResult t.cmd t.ops) t) = commandPart (complete (wordResult s.cmd s.ops) s) := by
  rw [commandPart_complete, h, eq_of_commandPart State.cmd h, eq_of_commandPart State.ops h, ← commandPart_complete]

/-- A write while BUSY = 1 touches neither the command in flight nor the steps it has left (20_memory.md R58). -/
theorem busWrite_busy_keeps_command (off : Nat) (v : Word32) {s : State} (hb : s.busy = true) :
    commandPart (busWrite off v s) = commandPart s ∧ (busWrite off v s).remaining = s.remaining ∧
      (busWrite off v s).events = s.events := by
  rcases busWrite_cases off v s with e | ⟨hb', -⟩ | ⟨-, e⟩ | e | e | e | ⟨hb', -⟩
  case inr.inl | inr.inr.inr.inr.inr.inr => simp [hb] at hb'
  all_goals rw [e]; exact ⟨rfl, rfl, rfl⟩

/-! ## The steps before an engine step -/

/-- A 32-bit access at a multiple of 4 in the window, whatever it does there, is answered (20_memory.md R50). -/
theorem exists_offset_of_legal {addr : Nat} (h : (windowOffset addr).any (· % 4 == 0) = true) :
    ∃ off, ∀ act, busAccess addr .word act = .next (act off) := by
  cases hw : windowOffset addr with
  | none => simp [hw] at h
  | some off =>
    have hmod : off % 4 = 0 := by simpa [hw] using h
    exact ⟨off, fun act => by simp [busAccess, hw, hmod]⟩

/-- A legal access while BUSY = 1 is answered and keeps the command in flight; the one thing it can add to the events is
an engine step, by a poll that fails (30_encoding.md R78). -/
theorem hostAccess_legal {op : HostOp} (hop : op.legal = true) {s : State} (hb : s.busy = true) :
    ∃ t, hostAccess op s = .next t ∧ commandPart t = commandPart s ∧ t.remaining = s.remaining ∧
      (t.events = s.events ∨ t.events = .engine :: .host op :: s.events) := by
  cases op with
  | wr addr size v =>
    obtain ⟨hsize, haddr⟩ := Bool.and_eq_true_iff.mp hop
    obtain rfl := eq_of_beq hsize
    obtain ⟨off, hact⟩ := exists_offset_of_legal haddr
    obtain ⟨hpart, hrem, hev⟩ := busWrite_busy_keeps_command off v hb
    exact ⟨_, hact _, hpart, hrem, .inl hev⟩
  | rd addr size name =>
    obtain ⟨hsize, haddr⟩ := Bool.and_eq_true_iff.mp hop
    obtain rfl := eq_of_beq hsize
    obtain ⟨off, hact⟩ := exists_offset_of_legal haddr
    exact ⟨_, hact _, rfl, rfl, .inl rfl⟩
  | poll addr mask val =>
    obtain ⟨off, hact⟩ := exists_offset_of_legal hop
    refine ⟨_, hact _, ?_⟩
    simp only [pollRead]
    split
    · exact ⟨rfl, rfl, .inl rfl⟩
    · exact ⟨rfl, rfl, .inr rfl⟩

/-- A released reset input may be released again (70_reset_and_hazards.md R230). -/
theorem step_resetRelease {s : State} {es : List Event} (hh : s.resetHeld = false)
    (he : s.events = .resetRelease :: es) : step s = .next { s with events := es } := by
  simp [step, nextEvent, hh, liveEvent, he]

/-- A run of k steps and then m more. -/
theorem run_append {k m : Nat} {s t : State} (h : Host.Core.run Sys2Proof.core k s = .next t) :
    Host.Core.run Sys2Proof.core (k + m) s = Host.Core.run Sys2Proof.core m t := by
  induction k generalizing s with
  | zero =>
    cases h
    rw [Nat.zero_add]
  | succ k ih =>
    cases hs : core.step s with
    | next u =>
      rw [run_step hs] at h
      rw [Nat.add_right_comm, run_step hs, ih h]
    | fault r | refused r =>
      simp only [Host.Core.run, hs] at h
      cases h

/-- A harmless event keeps the command in flight. Unless it is an engine step, it is done with in a step, or is a
failing poll, which puts an engine step in front of itself. -/
theorem step_harmless {e : Event} {es : List Event} {s : State} (hharm : e.harmless = true) (hne : e ≠ .engine)
    (hh : s.resetHeld = false) (hb : s.busy = true) (he : s.events = e :: es) :
    ∃ t, step s = .next t ∧ commandPart t = commandPart s ∧ t.remaining = s.remaining ∧
      (t.events = es ∨ t.events = .engine :: e :: es) := by
  cases e with
  | engine => exact absurd rfl hne
  | resetAssert => cases hharm
  | resetRelease => exact ⟨_, step_resetRelease hh he, rfl, rfl, .inl rfl⟩
  | host op =>
    obtain ⟨t, hanswer, hkept⟩ := hostAccess_legal hharm (s := { s with events := es }) hb
    exact ⟨t, (step_eq_hostAccess hh he).trans hanswer, hkept⟩

/-- The next event becomes an engine step, by induction on the events before it. -/
theorem reaches_engineStep {es : List Event} {s : State} (hh : s.resetHeld = false) (hb : s.busy = true)
    (he : s.events = es) (hes : ∀ e ∈ es, e.harmless = true) :
    ∃ k t rest, Host.Core.run Sys2Proof.core k s = .next t ∧ commandPart t = commandPart s ∧
      t.remaining = s.remaining ∧ t.engineNext rest ∧ ∀ e ∈ rest, e.harmless = true := by
  induction es generalizing s with
  | nil => exact ⟨0, s, [], rfl, rfl, rfl, .inl ⟨he, rfl⟩, hes⟩
  | cons e es ih =>
    obtain ⟨hharm, hrest⟩ := List.forall_mem_cons.mp hes
    by_cases hengine : e = .engine
    · exact ⟨0, s, es, rfl, rfl, rfl, .inr (hengine ▸ he), hrest⟩
    obtain ⟨u, hstep, hpart, hrem, hev | hev⟩ := step_harmless hharm hengine hh hb he
    · obtain ⟨k, t, rest, hrun, hpart', hrem', hnext⟩ := ih ((eq_of_commandPart State.resetHeld hpart).trans hh)
        ((eq_of_commandPart State.busy hpart).trans hb) hev hrest
      exact ⟨k + 1, t, rest, (run_step hstep).trans hrun, hpart'.trans hpart, hrem'.trans hrem, hnext⟩
    · exact ⟨1, u, e :: es, run_step hstep, hpart, hrem, .inr hev, hes⟩

/-! ## The completion -/

/-- The command in flight completes, by induction on the steps it has left (40_command_execution.md R114, R115). -/
theorem reaches_completion {s : State} (hh : s.resetHeld = false) (hb : s.busy = true)
    (hes : ∀ e ∈ s.events, e.harmless = true) :
    ∃ k t, Host.Core.run Sys2Proof.core k s = .next (complete (wordResult t.cmd t.ops) t) ∧
      commandPart t = commandPart s := by
  induction hn : s.remaining using Nat.strong_induction_on generalizing s with
  | _ n ih =>
    obtain ⟨k, t, rest, hrun, hpart, hrem, hnext, hrest⟩ := reaches_engineStep hh hb rfl hes
    have hheld : t.resetHeld = false := (eq_of_commandPart State.resetHeld hpart).trans hh
    have hbusy : t.busy = true := (eq_of_commandPart State.busy hpart).trans hb
    have hengine := step_eq_engineStep hheld hnext
    rcases engineStep_cases { t with events := rest } with
      ⟨hidle, -⟩ | ⟨-, hleft, hprogress⟩ | ⟨-, -, hcomplete⟩
    · exact absurd (hbusy.symm.trans hidle) (by decide)
    · have hless : t.remaining - 1 < n := by
        have : 1 < t.remaining := hleft
        omega
      obtain ⟨m, u, hrun', hpart'⟩ := ih _ hless
        (s := { t with events := rest, remaining := t.remaining - 1 }) hheld hbusy hrest rfl
      refine ⟨k + (m + 1), u, ?_, hpart'.trans hpart⟩
      rw [run_append hrun, run_step (hengine.trans hprogress), hrun']
    · refine ⟨k + 1, { t with events := rest }, ?_, hpart⟩
      rw [run_append hrun, run_step (hengine.trans hcomplete)]
      rfl

/-- Settles O17: the run reaches the completion from a state that agrees with s on the command in flight. -/
theorem commandInFlightCompletes : Obligations.CommandInFlightCompletes := by
  intro s hh hb hes
  obtain ⟨k, t, hrun, hpart⟩ := reaches_completion hh hb hes
  have hout := commandPart_completion hpart
  exact ⟨k, _, _, hrun, runCommand_eq s, complete_busy _ _, complete_done _ _, complete_doneip _ _,
    (complete_cmd _ _).trans (eq_of_commandPart State.cmd hpart),
    (complete_ops _ _).trans (eq_of_commandPart State.ops hpart),
    eq_of_commandPart State.err hout, eq_of_commandPart State.errcode hout, eq_of_commandPart State.qx hout,
    eq_of_commandPart State.qy hout, eq_of_commandPart State.qinf hout⟩

end Sys2Proof.Proofs
end

section
/-! Reset: the state it leaves, the command it discards, and the commands on the operands it leaves
(70_reset_and_hazards.md R230 to R233). -/

namespace Sys2Proof.Proofs
open Sys2Proof.Machine Sys2Proof.Laws

/-! ## The edges of the reset input -/

/-- The step of an assert of reset, whether or not reset is held (70_reset_and_hazards.md R230). -/
theorem step_resetAssert {s : State} {es : List Event} (he : s.events = .resetAssert :: es) :
    step s = .next (engineReset { s with resetHeld := true, events := es }) := by
  cases hh : s.resetHeld
  · simp [step, nextEvent, hh, liveEvent, he]
  · simp [step, nextEvent, hh, heldEvent, he, engineReset]

/-- The step of a release while reset is held (70_reset_and_hazards.md R230). -/
theorem step_resetRelease_held {s : State} {es : List Event} (hh : s.resetHeld = true)
    (he : s.events = .resetRelease :: es) : step s = .next { s with resetHeld := false, events := es } := by
  simp [step, nextEvent, hh, heldEvent, he]

/-- While reset is held only its edges are taken (70_reset_and_hazards.md R230). -/
theorem step_held {s : State} (hh : s.resetHeld = true) {op : HostOp} {es : List Event}
    (he : s.events = .host op :: es ∨ s.events = .engine :: es ∨ s.events = []) : step s = .fault .heldInReset := by
  rcases he with he | he | he <;> simp [step, nextEvent, hh, heldEvent, he]

/-- Settles O38: the reset state is what reset makes of itself. -/
theorem invariantHoldsAtReset : Obligations.InvariantHoldsAtReset := inv_engineReset State.reset

/-- Settles O57: the engine is idle after the release, so its step does nothing. -/
theorem resetDiscardsTheCommand : Obligations.ResetDiscardsTheCommand := by
  rintro s es - - he
  rw [run_step (step_resetAssert he), run_step (step_resetRelease_held rfl rfl),
    run_step (step_eq_engineStep rfl (.inr rfl))]
  rfl

/-! ## The window after reset -/

/-- No 32-bit register shows what reset leaves as it was. -/
theorem ctrl_engineReset (s : State) (r : CtrlReg) : (engineReset s).ctrl r = State.reset.ctrl r := by
  cases r <;> rfl

theorem ctrl_reset {r : CtrlReg} (h : 0x008 ≤ r.offset) : State.reset.ctrl r = 0 := by
  cases r with
  | id | version => exact absurd h (by decide)
  | cmd | status | irqen | irqpend | opflags => decide

theorem wide_engineReset (s : State) {r : WideReg} (h : r.offset < 0x300) : (engineReset s).wide r = 0 := by
  cases r with
  | constP | constN | constGx | constGy => exact absurd h (by decide)
  | ax | ay | bx | by_ | k | sigR | sigS | digest | qx | qy => rfl

theorem wordOf_zero (j : Nat) : wordOf 0 j = 0 := by simp [wordOf]

/-- Every register but the constants reads 0 after reset (70_reset_and_hazards.md R230). -/
theorem busRead_engineReset (s : State) {off : Nat} (hlo : 0x008 ≤ off) (hhi : off < 0x300) :
    busRead (engineReset s) off = 0 := by
  rcases hw : windowWord off with r | ⟨r, j⟩ | _
  · obtain rfl := offset_of_windowWord_ctrl hw
    rw [busRead_ctrl, ctrl_engineReset, ctrl_reset hlo]
  · obtain ⟨hoff, -, -⟩ := offset_of_windowWord_wide hw
    simp only [busRead, hw, wide_engineReset s (hoff.trans_lt hhi), wordOf_zero]
  · exact busRead_of_reserved hw _

theorem ctrl_constant (s t : State) {r : CtrlReg} (h : r.offset < 0x008) : t.ctrl r = s.ctrl r := by
  cases r with
  | id | version => rfl
  | cmd | status | irqen | irqpend | opflags => exact absurd h (by decide)

theorem wide_constant (s t : State) {r : WideReg} (h : 0x300 ≤ r.offset) : t.wide r = s.wide r := by
  cases r with
  | constP | constN | constGx | constGy => rfl
  | ax | ay | bx | by_ | k | sigR | sigS | digest | qx | qy => exact absurd h (by decide)

/-- ID, VERSION and the curve constants are the same in every state (10_state.md R22, R23, R35). -/
theorem busRead_constant (s t : State) {off : Nat} (h : off < 0x008 ∨ 0x300 ≤ off) : busRead t off = busRead s off := by
  rcases hw : windowWord off with r | ⟨r, j⟩ | _
  · obtain rfl := offset_of_windowWord_ctrl hw
    have := ctrlReg_offset_lt r
    rw [busRead_ctrl, busRead_ctrl, ctrl_constant s t (by omega)]
  · obtain ⟨hlo, hhi, -⟩ := offset_of_windowWord_wide hw
    have hr : 0x300 ≤ r.offset := by
      have := wideReg_offset_range r
      omega
    simp only [busRead, hw, wide_constant s t hr]
  · rw [busRead_of_reserved hw, busRead_of_reserved hw]

/-- Settles O56: the reset event is `engineReset` with the input held, and the window reads as it left it. -/
theorem resetRestoresEverything : Obligations.ResetRestoresEverything := by
  refine ⟨fun s es he => ?_, fun s op es hh he => step_held hh he⟩
  exact ⟨_, step_resetAssert he, rfl, rfl, fun off hlo hhi => busRead_engineReset _ hlo hhi,
    fun off hoff => busRead_constant s _ hoff⟩

/-! ## The commands on the operands of reset (70_reset_and_hazards.md R233) -/

/-- The point Aff(0, 0) is in range and not on the curve: 0 is not 7. -/
theorem checkPoint_origin : checkPoint (.aff 0 0) = .error .pointNotOnCurve :=
  checkPoint_offCurve (by simp [outOfRange, curveP]) (by simp [offCurve, curveP])

theorem powMod_zero (m : Nat) {e : Nat} (h0 : e ≠ 0) (he : e < 2 ^ 256) : powMod m 0 e = 0 := by
  rw [powMod_eq m 0 e he, zero_pow h0, Nat.zero_mod]

/-- The candidate of 0 is 0, since (p + 1) / 4 is not 0 (42_point_decoder.md R150). -/
theorem sqrtCandidate_zero : sqrtCandidate 0 = 0 := powMod_zero curveP (by decide) (by decide)

/-- PADD, PDBL and PMUL check A first (41_point_math.md R134 to R136). -/
theorem commandResult_of_origin {i : Instr} {o : OperandFile} (hA : operandA o = .aff 0 0)
    (hi : i = .padd ∨ i = .pdbl ∨ i = .pmul) : commandResult i o = .error .pointNotOnCurve := by
  have hcheck : checkPoint (operandA o) = .error .pointNotOnCurve := hA ▸ checkPoint_origin
  rcases hi with rfl | rfl | rfl
  · exact paddResult_of_errorA hcheck
  · exact pdblResult_of_error hcheck
  · exact pmulResult_of_error hcheck

theorem sqrtResult_zero {o : OperandFile} (h : o.ax.toNat = 0) : sqrtResult o = .ok (.aff 0 0) := by
  have hok := sqrtResult_of_root (o := o) (by rw [h]; exact curveP_pos) (by rw [h, sqrtCandidate_zero]; rfl)
  rwa [h, sqrtCandidate_zero] at hok

/-- Settles O58: Aff(0, 0) is not on the curve, 0 is its own root, and no point has x = 0. -/
theorem commandsAfterReset : Obligations.CommandsAfterReset := by
  refine ⟨⟨rfl, rfl, rfl, rfl⟩, fun s i hA hi => ⟨_, exec_eq i s, ?_⟩, fun s hA hB => ⟨_, exec_eq .padd s, ?_⟩,
    fun s hx => ⟨_, exec_eq .sqrt s, ?_⟩, fun s odd _ hx => ⟨_, exec_eq (.decomp odd) s, ?_⟩,
    fun s hr => ⟨_, exec_eq (.recover 0) s, ?_⟩⟩
  · exact failedAs_of_error (commandResult_of_origin hA hi) s
  · exact failedAs_of_error (paddResult_of_errorB (checkPoint_of_valid hA) (hB ▸ checkPoint_origin)) s
  · have hx : s.ops.ax.toNat = 0 := congrArg BitVec.toNat hx
    rw [commandResult, sqrtResult_zero hx]
    exact succeededAs_complete (by simp [fits]) s
  · have hx : s.ops.ax.toNat = 0 := congrArg BitVec.toNat hx
    exact failedAs_of_error (decompResult_of_no_point odd (hx ▸ curveP_pos) (hx ▸ not_hasPoint_zero)) s
  · have hr : s.ops.sigR.toNat = 0 := congrArg BitVec.toNat hr
    exact failedAs_of_error (recoverResult_of_no_point two_pos (hr ▸ curveP_pos) (hr ▸ not_hasPoint_zero)) s

end Sys2Proof.Proofs
end
